-- ==== Sys2Proof/Word.lean ====
section
/-! DEFINITION. The widths of the machine: words, halfwords, bytes, register indices. -/

namespace Sys2Proof

/-- A 32-bit value: a register, an address, an instruction word (spec/00_scope.md R4 and section 7). -/
abbrev Word := BitVec 32

/-- A 16-bit value: the immediate field, a halfword of memory (R56, R37). -/
abbrev Half := BitVec 16

/-- An 8-bit value: a byte of memory (R36). -/
abbrev Byte := BitVec 8

/-- The index of a general register, 0 to 31: "All register indices are masked to valid range by the
decoder (5-bit fields)" (spec/10_state.md R11). -/
abbrev RegIdx := Fin 32

end Sys2Proof
end

