-- ==== Sys2Proof/Syntax.lean ====
section
/-! DEFINITION. The syntax: one constructor for each of the 53 rows of spec/opcode_table.json, holding exactly the operands
the instruction's rule reads, in the assembler's order (spec/30_encoding.md R68). -/

namespace Sys2Proof

/-- The 53 instructions of spec/30_encoding.md R62. Fields that an instruction ignores (R65) are no operands. -/
inductive Instr where
  -- shifts, spec/41_alu_register.md R96 to R102
  | sll (rd rt : RegIdx) (shamt : Nat)
  | srl (rd rt : RegIdx) (shamt : Nat)
  | sra (rd rt : RegIdx) (shamt : Nat)
  | sllv (rd rt rs : RegIdx)
  | srlv (rd rt rs : RegIdx)
  | srav (rd rt rs : RegIdx)
  -- jumps through a register and SYSCALL, R149, R150, R180
  | jr (rs : RegIdx)
  | jalr (rd rs : RegIdx)
  | syscall
  -- HI and LO, R119 to R122, R113 to R116
  | mfhi (rd : RegIdx)
  | mthi (rs : RegIdx)
  | mflo (rd : RegIdx)
  | mtlo (rs : RegIdx)
  | mult (rs rt : RegIdx)
  | multu (rs rt : RegIdx)
  | div (rs rt : RegIdx)
  | divu (rs rt : RegIdx)
  -- add, subtract, logic, compare, R103 to R112
  | add (rd rs rt : RegIdx)
  | addu (rd rs rt : RegIdx)
  | sub (rd rs rt : RegIdx)
  | subu (rd rs rt : RegIdx)
  | and (rd rs rt : RegIdx)
  | or (rd rs rt : RegIdx)
  | xor (rd rs rt : RegIdx)
  | nor (rd rs rt : RegIdx)
  | slt (rd rs rt : RegIdx)
  | sltu (rd rs rt : RegIdx)
  -- the special branch group, spec/43_control_flow.md R155 to R158
  | bltz (rs : RegIdx) (imm : Half)
  | bgez (rs : RegIdx) (imm : Half)
  | bltzal (rs : RegIdx) (imm : Half)
  | bgezal (rs : RegIdx) (imm : Half)
  -- jumps, R147, R148
  | j (tgt26 : BitVec 26)
  | jal (tgt26 : BitVec 26)
  -- branches, R151 to R154
  | beq (rs rt : RegIdx) (imm : Half)
  | bne (rs rt : RegIdx) (imm : Half)
  | blez (rs : RegIdx) (imm : Half)
  | bgtz (rs : RegIdx) (imm : Half)
  -- immediates, spec/42_alu_immediate.md R131 to R138
  | addi (rt rs : RegIdx) (imm : Half)
  | addiu (rt rs : RegIdx) (imm : Half)
  | slti (rt rs : RegIdx) (imm : Half)
  | sltiu (rt rs : RegIdx) (imm : Half)
  | andi (rt rs : RegIdx) (imm : Half)
  | ori (rt rs : RegIdx) (imm : Half)
  | xori (rt rs : RegIdx) (imm : Half)
  | lui (rt : RegIdx) (imm : Half)
  -- loads and stores, written `op rt, imm(rs)`, spec/44_memory_access.md R166 to R173
  | lb (rt : RegIdx) (imm : Half) (rs : RegIdx)
  | lh (rt : RegIdx) (imm : Half) (rs : RegIdx)
  | lw (rt : RegIdx) (imm : Half) (rs : RegIdx)
  | lbu (rt : RegIdx) (imm : Half) (rs : RegIdx)
  | lhu (rt : RegIdx) (imm : Half) (rs : RegIdx)
  | sb (rt : RegIdx) (imm : Half) (rs : RegIdx)
  | sh (rt : RegIdx) (imm : Half) (rs : RegIdx)
  | sw (rt : RegIdx) (imm : Half) (rs : RegIdx)
deriving DecidableEq, Repr

/-- Why a word is none of the 53 instructions (spec/30_encoding.md R62 to R64, R66): the level of the dispatch that
finds nothing, and the value it found. -/
inductive Unassigned where
  /-- `op` is one of the 40 unassigned opcodes. -/
  | opcode (op : BitVec 6)
  /-- `op` = 0 and `funct` is one of the 37 unassigned function codes. -/
  | funct (funct : BitVec 6)
  /-- `op` = 1 and `rt` is one of the 28 unassigned selectors. -/
  | selector (rt : BitVec 5)
deriving DecidableEq, Repr

/-- What a word decodes to: "The decode function returns a distinct value for an unassigned word, and the step gives that
value the meaning of rule R89" (spec/40_decode_dispatch.md R90). -/
inductive Decoded where
  | instr (i : Instr)
  | unassigned (u : Unassigned)
deriving DecidableEq, Repr

/-- What a string of bytes decodes to: a word's decoding and the bytes after it, or too few bytes for a word. -/
inductive ByteDecoded where
  | word (d : Decoded) (rest : List Byte)
  | truncated
deriving DecidableEq, Repr

end Sys2Proof
end

