-- ==== Sys2Proof/WellFormed.lean ====
section
/-! DEFINITION. Well-formed instructions: those an encoding exists for, and the two conditions on a label that
spec/30_encoding.md R68 sets for a jump and a branch. -/

namespace Sys2Proof

/-- An instruction has an encoding: a constant shift's amount is "an unsigned number 0 to 31" (spec/30_encoding.md, before R62).
Every other operand is typed at the width of its field, so nothing else can be ill-formed. -/
def Instr.wf : Instr → Bool
  | .sll _ _ shamt | .srl _ _ shamt | .sra _ _ shamt => decide (shamt < 32)
  | .sllv .. | .srlv .. | .srav .. | .jr .. | .jalr .. | .syscall | .mfhi .. | .mthi .. | .mflo .. | .mtlo ..
  | .mult .. | .multu .. | .div .. | .divu .. | .add .. | .addu .. | .sub .. | .subu .. | .and .. | .or .. | .xor ..
  | .nor .. | .slt .. | .sltu .. | .bltz .. | .bgez .. | .bltzal .. | .bgezal .. | .j .. | .jal .. | .beq .. | .bne ..
  | .blez .. | .bgtz .. | .addi .. | .addiu .. | .slti .. | .sltiu .. | .andi .. | .ori .. | .xori .. | .lui ..
  | .lb .. | .lh .. | .lw .. | .lbu .. | .lhu .. | .sb .. | .sh .. | .sw .. => true

/-- A J or JAL at `pc` can name `label`: it "needs `label[31:28] = pc[31:28]` of the jump itself" (R68), and a jump
lands on a multiple of 4 (R147). -/
def jumpReaches (pc label : Word) : Bool :=
  label.extractLsb' 28 4 == pc.extractLsb' 28 4 && label.extractLsb' 0 2 == 0

/-- A branch at `pc` can name `label`: the displacement from `pc + 4` is a multiple of 4 in the range -131072 to 131068
of `offset` (R59). -/
def branchReaches (pc label : Word) : Bool :=
  (label - (pc + 4)).toInt % 4 == 0 && decide (-131072 ≤ (label - (pc + 4)).toInt) && decide ((label - (pc + 4)).toInt ≤ 131068)

end Sys2Proof
end

