-- ==== Sys2Proof/Decode.lean ====
section
/-! DEFINITION. The Instruction Decoder and the Dispatcher's selection (spec/30_encoding.md, spec/40_decode_dispatch.md R82 to R86),
total on every word and every string of bytes; then the encoder, written from the same tables. -/

namespace Sys2Proof

/-! ## Fields (R56) -/

/-- A register index from a 5-bit field, and back. -/
def regOfField (b : BitVec 5) : RegIdx := b.toFin
def fieldOfReg (r : RegIdx) : BitVec 5 := BitVec.ofFin r

/-- Bits 31:26. -/
def fieldOp (w : Word) : BitVec 6 := w.extractLsb' 26 6
/-- Bits 25:21. -/
def fieldRs (w : Word) : BitVec 5 := w.extractLsb' 21 5
/-- Bits 20:16. -/
def fieldRt (w : Word) : BitVec 5 := w.extractLsb' 16 5
/-- Bits 15:11. -/
def fieldRd (w : Word) : BitVec 5 := w.extractLsb' 11 5
/-- Bits 10:6. -/
def fieldShamt (w : Word) : BitVec 5 := w.extractLsb' 6 5
/-- Bits 5:0. -/
def fieldFunct (w : Word) : BitVec 6 := w.extractLsb' 0 6
/-- Bits 15:0. -/
def fieldImm (w : Word) : Half := w.extractLsb' 0 16
/-- Bits 25:0. -/
def fieldTgt26 (w : Word) : BitVec 26 := w.extractLsb' 0 26

/-- The register a word's `rs` field names; `rtOf` and `rdOf` likewise. -/
def rsOf (w : Word) : RegIdx := regOfField (fieldRs w)
def rtOf (w : Word) : RegIdx := regOfField (fieldRt w)
def rdOf (w : Word) : RegIdx := regOfField (fieldRd w)
/-- The shift amount of a word's `shamt` field, as a number. -/
def shamtOf (w : Word) : Nat := (fieldShamt w).toNat

/-! ## Dispatch (R84 to R86) -/

/-- The second level under `op` = 0 (R63, R85): the function code alone selects. -/
def decodeFunct (w : Word) : Decoded :=
  match fieldFunct w with
  | 0x00#6 => .instr (.sll (rdOf w) (rtOf w) (shamtOf w))
  | 0x02#6 => .instr (.srl (rdOf w) (rtOf w) (shamtOf w))
  | 0x03#6 => .instr (.sra (rdOf w) (rtOf w) (shamtOf w))
  | 0x04#6 => .instr (.sllv (rdOf w) (rtOf w) (rsOf w))
  | 0x06#6 => .instr (.srlv (rdOf w) (rtOf w) (rsOf w))
  | 0x07#6 => .instr (.srav (rdOf w) (rtOf w) (rsOf w))
  | 0x08#6 => .instr (.jr (rsOf w))
  | 0x09#6 => .instr (.jalr (rdOf w) (rsOf w))
  | 0x0C#6 => .instr .syscall
  | 0x10#6 => .instr (.mfhi (rdOf w))
  | 0x11#6 => .instr (.mthi (rsOf w))
  | 0x12#6 => .instr (.mflo (rdOf w))
  | 0x13#6 => .instr (.mtlo (rsOf w))
  | 0x18#6 => .instr (.mult (rsOf w) (rtOf w))
  | 0x19#6 => .instr (.multu (rsOf w) (rtOf w))
  | 0x1A#6 => .instr (.div (rsOf w) (rtOf w))
  | 0x1B#6 => .instr (.divu (rsOf w) (rtOf w))
  | 0x20#6 => .instr (.add (rdOf w) (rsOf w) (rtOf w))
  | 0x21#6 => .instr (.addu (rdOf w) (rsOf w) (rtOf w))
  | 0x22#6 => .instr (.sub (rdOf w) (rsOf w) (rtOf w))
  | 0x23#6 => .instr (.subu (rdOf w) (rsOf w) (rtOf w))
  | 0x24#6 => .instr (.and (rdOf w) (rsOf w) (rtOf w))
  | 0x25#6 => .instr (.or (rdOf w) (rsOf w) (rtOf w))
  | 0x26#6 => .instr (.xor (rdOf w) (rsOf w) (rtOf w))
  | 0x27#6 => .instr (.nor (rdOf w) (rsOf w) (rtOf w))
  | 0x2A#6 => .instr (.slt (rdOf w) (rsOf w) (rtOf w))
  | 0x2B#6 => .instr (.sltu (rdOf w) (rsOf w) (rtOf w))
  | f => .unassigned (.funct f)

/-- The second level under `op` = 1 (R64, R86): all five bits of `rt` select (log 12). -/
def decodeSelector (w : Word) : Decoded :=
  match fieldRt w with
  | 0x00#5 => .instr (.bltz (rsOf w) (fieldImm w))
  | 0x01#5 => .instr (.bgez (rsOf w) (fieldImm w))
  | 0x10#5 => .instr (.bltzal (rsOf w) (fieldImm w))
  | 0x11#5 => .instr (.bgezal (rsOf w) (fieldImm w))
  | rt => .unassigned (.selector rt)

/-- The decoding of a word: the first level by `op` (R62, R84). Total (R57); the numbers are log 9. -/
def decode (w : Word) : Decoded :=
  match fieldOp w with
  | 0x00#6 => decodeFunct w
  | 0x01#6 => decodeSelector w
  | 0x02#6 => .instr (.j (fieldTgt26 w))
  | 0x03#6 => .instr (.jal (fieldTgt26 w))
  | 0x04#6 => .instr (.beq (rsOf w) (rtOf w) (fieldImm w))
  | 0x05#6 => .instr (.bne (rsOf w) (rtOf w) (fieldImm w))
  | 0x06#6 => .instr (.blez (rsOf w) (fieldImm w))
  | 0x07#6 => .instr (.bgtz (rsOf w) (fieldImm w))
  | 0x08#6 => .instr (.addi (rtOf w) (rsOf w) (fieldImm w))
  | 0x09#6 => .instr (.addiu (rtOf w) (rsOf w) (fieldImm w))
  | 0x0A#6 => .instr (.slti (rtOf w) (rsOf w) (fieldImm w))
  | 0x0B#6 => .instr (.sltiu (rtOf w) (rsOf w) (fieldImm w))
  | 0x0C#6 => .instr (.andi (rtOf w) (rsOf w) (fieldImm w))
  | 0x0D#6 => .instr (.ori (rtOf w) (rsOf w) (fieldImm w))
  | 0x0E#6 => .instr (.xori (rtOf w) (rsOf w) (fieldImm w))
  | 0x0F#6 => .instr (.lui (rtOf w) (fieldImm w))
  | 0x20#6 => .instr (.lb (rtOf w) (fieldImm w) (rsOf w))
  | 0x21#6 => .instr (.lh (rtOf w) (fieldImm w) (rsOf w))
  | 0x23#6 => .instr (.lw (rtOf w) (fieldImm w) (rsOf w))
  | 0x24#6 => .instr (.lbu (rtOf w) (fieldImm w) (rsOf w))
  | 0x25#6 => .instr (.lhu (rtOf w) (fieldImm w) (rsOf w))
  | 0x28#6 => .instr (.sb (rtOf w) (fieldImm w) (rsOf w))
  | 0x29#6 => .instr (.sh (rtOf w) (fieldImm w) (rsOf w))
  | 0x2B#6 => .instr (.sw (rtOf w) (fieldImm w) (rsOf w))
  | op => .unassigned (.opcode op)

/-! ## Bytes (R34: the byte at the lowest address is bits 7:0; log 25) -/

/-- The word whose bytes, lowest address first, are `b0 b1 b2 b3`. -/
def wordOfBytes (b0 b1 b2 b3 : Byte) : Word := b3 ++ b2 ++ b1 ++ b0

/-- Byte `k` of a word, 0 the least significant. -/
def byteOfWord (w : Word) (k : Nat) : Byte := w.extractLsb' (8 * k) 8

/-- The bytes of a word, lowest address first. -/
def bytesOfWord (w : Word) : List Byte := [byteOfWord w 0, byteOfWord w 1, byteOfWord w 2, byteOfWord w 3]

/-- Decoding a string of bytes: one word of four bytes (R55) and the rest. -/
def decodeBytes : List Byte → ByteDecoded
  | b0 :: b1 :: b2 :: b3 :: rest => .word (decode (wordOfBytes b0 b1 b2 b3)) rest
  | _ => .truncated

/-- The instruction word that spec/opcode_table.json's numbering of `nbits` bits `w` stands for. -/
def tableWord (nbits w : Nat) : Word := BitVec.ofNat 32 (w % 2 ^ nbits)

/-- The instruction the decoder reads from the bytes of that word. -/
def decodeTableWord (nbits w : Nat) : Option Instr :=
  match decodeBytes (bytesOfWord (tableWord nbits w)) with
  | .word (.instr i) _ => some i
  | .word (.unassigned _) _ => none
  | .truncated => none

/-! ## The encoder. Ignored fields are written as zeros (the convention of R68; log 11) -/

/-- The R-type word of R56. -/
def rType (op : BitVec 6) (rs rt rd : RegIdx) (shamt : Nat) (funct : BitVec 6) : Word :=
  op ++ fieldOfReg rs ++ fieldOfReg rt ++ fieldOfReg rd ++ BitVec.ofNat 5 shamt ++ funct

/-- The I-type word of R56. -/
def iType (op : BitVec 6) (rs rt : RegIdx) (imm : Half) : Word :=
  op ++ fieldOfReg rs ++ fieldOfReg rt ++ imm

/-- The J-type word of R56. -/
def jType (op : BitVec 6) (tgt26 : BitVec 26) : Word := op ++ tgt26

/-- The word of an instruction (the Encoding line of each rule; R62 to R64). -/
def encode : Instr → Word
  | .sll rd rt shamt => rType 0x00 0 rt rd shamt 0x00
  | .srl rd rt shamt => rType 0x00 0 rt rd shamt 0x02
  | .sra rd rt shamt => rType 0x00 0 rt rd shamt 0x03
  | .sllv rd rt rs => rType 0x00 rs rt rd 0 0x04
  | .srlv rd rt rs => rType 0x00 rs rt rd 0 0x06
  | .srav rd rt rs => rType 0x00 rs rt rd 0 0x07
  | .jr rs => rType 0x00 rs 0 0 0 0x08
  | .jalr rd rs => rType 0x00 rs 0 rd 0 0x09
  | .syscall => rType 0x00 0 0 0 0 0x0C
  | .mfhi rd => rType 0x00 0 0 rd 0 0x10
  | .mthi rs => rType 0x00 rs 0 0 0 0x11
  | .mflo rd => rType 0x00 0 0 rd 0 0x12
  | .mtlo rs => rType 0x00 rs 0 0 0 0x13
  | .mult rs rt => rType 0x00 rs rt 0 0 0x18
  | .multu rs rt => rType 0x00 rs rt 0 0 0x19
  | .div rs rt => rType 0x00 rs rt 0 0 0x1A
  | .divu rs rt => rType 0x00 rs rt 0 0 0x1B
  | .add rd rs rt => rType 0x00 rs rt rd 0 0x20
  | .addu rd rs rt => rType 0x00 rs rt rd 0 0x21
  | .sub rd rs rt => rType 0x00 rs rt rd 0 0x22
  | .subu rd rs rt => rType 0x00 rs rt rd 0 0x23
  | .and rd rs rt => rType 0x00 rs rt rd 0 0x24
  | .or rd rs rt => rType 0x00 rs rt rd 0 0x25
  | .xor rd rs rt => rType 0x00 rs rt rd 0 0x26
  | .nor rd rs rt => rType 0x00 rs rt rd 0 0x27
  | .slt rd rs rt => rType 0x00 rs rt rd 0 0x2A
  | .sltu rd rs rt => rType 0x00 rs rt rd 0 0x2B
  | .bltz rs imm => iType 0x01 rs 0x00 imm
  | .bgez rs imm => iType 0x01 rs 0x01 imm
  | .bltzal rs imm => iType 0x01 rs 0x10 imm
  | .bgezal rs imm => iType 0x01 rs 0x11 imm
  | .j tgt26 => jType 0x02 tgt26
  | .jal tgt26 => jType 0x03 tgt26
  | .beq rs rt imm => iType 0x04 rs rt imm
  | .bne rs rt imm => iType 0x05 rs rt imm
  | .blez rs imm => iType 0x06 rs 0 imm
  | .bgtz rs imm => iType 0x07 rs 0 imm
  | .addi rt rs imm => iType 0x08 rs rt imm
  | .addiu rt rs imm => iType 0x09 rs rt imm
  | .slti rt rs imm => iType 0x0A rs rt imm
  | .sltiu rt rs imm => iType 0x0B rs rt imm
  | .andi rt rs imm => iType 0x0C rs rt imm
  | .ori rt rs imm => iType 0x0D rs rt imm
  | .xori rt rs imm => iType 0x0E rs rt imm
  | .lui rt imm => iType 0x0F 0 rt imm
  | .lb rt imm rs => iType 0x20 rs rt imm
  | .lh rt imm rs => iType 0x21 rs rt imm
  | .lw rt imm rs => iType 0x23 rs rt imm
  | .lbu rt imm rs => iType 0x24 rs rt imm
  | .lhu rt imm rs => iType 0x25 rs rt imm
  | .sb rt imm rs => iType 0x28 rs rt imm
  | .sh rt imm rs => iType 0x29 rs rt imm
  | .sw rt imm rs => iType 0x2B rs rt imm

/-- The bits of a word that matter once it is this instruction: the mask of its row and its operand fields; the other bits
are the ignored ones of R65. -/
def Instr.careMask : Instr → Word
  | .sll .. | .srl .. | .sra .. => 0xFC1FFFFF
  | .sllv .. | .srlv .. | .srav .. | .add .. | .addu .. | .sub .. | .subu .. | .and .. | .or .. | .xor .. | .nor ..
  | .slt .. | .sltu .. => 0xFFFFF83F
  | .mult .. | .multu .. | .div .. | .divu .. => 0xFFFF003F
  | .mfhi .. | .mflo .. => 0xFC00F83F
  | .mthi .. | .mtlo .. | .jr .. => 0xFFE0003F
  | .jalr .. => 0xFFE0F83F
  | .syscall => 0xFC00003F
  | .lui .. => 0xFC1FFFFF
  | .blez .. | .bgtz .. => 0xFFE0FFFF
  | .bltz .. | .bgez .. | .bltzal .. | .bgezal .. | .j .. | .jal .. | .beq .. | .bne .. | .addi .. | .addiu .. | .slti ..
  | .sltiu .. | .andi .. | .ori .. | .xori .. | .lb .. | .lh .. | .lw .. | .lbu .. | .lhu .. | .sb .. | .sh .. | .sw .. =>
    0xFFFFFFFF

/-! ## The rows of spec/opcode_table.json -/

/-- The `mask` of an instruction's row of spec/opcode_table.json: the bits the dispatch selects by (R65). -/
def Instr.rowMask : Instr → Word
  | .sll .. | .srl .. | .sra .. | .sllv .. | .srlv .. | .srav .. | .jr .. | .jalr .. | .syscall | .mfhi .. | .mthi ..
  | .mflo .. | .mtlo .. | .mult .. | .multu .. | .div .. | .divu .. | .add .. | .addu .. | .sub .. | .subu ..
  | .and .. | .or .. | .xor .. | .nor .. | .slt .. | .sltu .. => 0xFC00003F
  | .bltz .. | .bgez .. | .bltzal .. | .bgezal .. => 0xFC1F0000
  | .j .. | .jal .. | .beq .. | .bne .. | .blez .. | .bgtz .. | .addi .. | .addiu .. | .slti .. | .sltiu ..
  | .andi .. | .ori .. | .xori .. | .lui .. | .lb .. | .lh .. | .lw .. | .lbu .. | .lhu .. | .sb .. | .sh .. | .sw .. => 0xFC000000

/-- The `match` of an instruction's row of spec/opcode_table.json. -/
def Instr.rowMatch : Instr → Word
  | .sll .. => 0x00000000
  | .srl .. => 0x00000002
  | .sra .. => 0x00000003
  | .sllv .. => 0x00000004
  | .srlv .. => 0x00000006
  | .srav .. => 0x00000007
  | .jr .. => 0x00000008
  | .jalr .. => 0x00000009
  | .syscall => 0x0000000C
  | .mfhi .. => 0x00000010
  | .mthi .. => 0x00000011
  | .mflo .. => 0x00000012
  | .mtlo .. => 0x00000013
  | .mult .. => 0x00000018
  | .multu .. => 0x00000019
  | .div .. => 0x0000001A
  | .divu .. => 0x0000001B
  | .add .. => 0x00000020
  | .addu .. => 0x00000021
  | .sub .. => 0x00000022
  | .subu .. => 0x00000023
  | .and .. => 0x00000024
  | .or .. => 0x00000025
  | .xor .. => 0x00000026
  | .nor .. => 0x00000027
  | .slt .. => 0x0000002A
  | .sltu .. => 0x0000002B
  | .bltz .. => 0x04000000
  | .bgez .. => 0x04010000
  | .bltzal .. => 0x04100000
  | .bgezal .. => 0x04110000
  | .j .. => 0x08000000
  | .jal .. => 0x0C000000
  | .beq .. => 0x10000000
  | .bne .. => 0x14000000
  | .blez .. => 0x18000000
  | .bgtz .. => 0x1C000000
  | .addi .. => 0x20000000
  | .addiu .. => 0x24000000
  | .slti .. => 0x28000000
  | .sltiu .. => 0x2C000000
  | .andi .. => 0x30000000
  | .ori .. => 0x34000000
  | .xori .. => 0x38000000
  | .lui .. => 0x3C000000
  | .lb .. => 0x80000000
  | .lh .. => 0x84000000
  | .lw .. => 0x8C000000
  | .lbu .. => 0x90000000
  | .lhu .. => 0x94000000
  | .sb .. => 0xA0000000
  | .sh .. => 0xA4000000
  | .sw .. => 0xAC000000

/-! ## Labels (the field assembly of R68) -/

/-- The immediate of a branch at `pc` to `label`: `((label - (pc + 4)) >> 2)[15:0]`. -/
def branchField (pc label : Word) : Half := (label - (pc + 4)).extractLsb' 2 16

/-- The target field of a jump to `label`: `label[27:2]`. -/
def jumpField (label : Word) : BitVec 26 := label.extractLsb' 2 26

end Sys2Proof
end

