-- ==== Sys2Proof/Config.lean ====
section
/-! DEFINITION. The parameters of spec/00_scope.md R4 that the spec leaves OPEN, with the value this model names for each,
and the type of the division policies. -/

namespace Sys2Proof

/-- `RESET_PC`, the PC at the start of a run. DESIGN CHOICE (log 3): the spec leaves it open
(spec/10_state.md R26, spec/91_not_in_source.md N6). -/
def Config.resetPc : Word := 0

/-- The value every general register holds at the start. DESIGN CHOICE (log 3): R26 leaves it open;
its reference reset has 0. -/
def Config.resetReg : Word := 0

/-- The value of HI at the start. DESIGN CHOICE (log 3), as the reference reset of R26. -/
def Config.resetHi : Word := 0

/-- The value of LO at the start. DESIGN CHOICE (log 3), as the reference reset of R26. -/
def Config.resetLo : Word := 0

/-- What a byte of memory reads as that nothing has written (`M0` at every address). DESIGN CHOICE (log 2),
as the reference reset of R26. -/
def Config.unwrittenByte : Byte := 0

/-- What DIV and DIVU leave in (HI, LO) in the two cases that spec/93_implementation_defined.md (U1, U5) calls a parameter.
A claim over every `DivPolicy` is a claim that treats those results as any value. The policy the machine runs is
`Machine.divPolicy`. -/
structure DivPolicy where
  /-- (HI, LO) after a division by zero, from the dividend and the HI and LO before it. -/
  onZero : Word → Word → Word → Word × Word
  /-- (HI, LO) after the signed division of -2^31 by -1, from the HI and LO before it. -/
  onOverflow : Word → Word → Word × Word

end Sys2Proof
end

