-- ==== Sys2Proof/Machine/State.lean ====
section
/-! DEFINITION. The state of the machine (spec/10_state.md R10), its value at the start of a run, and the reasons a step can stop. -/

namespace Sys2Proof.Machine

/-- The contents of memory: the bytes that differ from what an unwritten byte reads as (`Config.unwrittenByte`), each with its
address, the addresses strictly rising (`Memory.wf` in Machine/Ops.lean). -/
abbrev Memory := List Host.Cell

/-- "A model's state is the tuple `(PC, REGS, HI, LO, RUN, MEM)`" (R10). The state is the spec's `current`; its `next` is the
state a step answers (R20, R22, R25). `μ` is what the memory component, the parameter `MEM` of spec/00_scope.md R4, keeps as its contents;
the machine that runs is `State`, which is `State Memory`, plain data. -/
structure State (μ : Type := Memory) where
  /-- `PC`, the address of the instruction to execute (R14). -/
  pc : Word
  /-- `REGS[0]` to `REGS[31]`; register 0 is an ordinary one (R11). -/
  regs : Vector Word 32
  /-- `HI` (R16). -/
  hi : Word
  /-- `LO` (R16). -/
  lo : Word
  /-- `RUN`: cycles are issued while it is set (R19). -/
  run : Bool
  /-- The contents of the memory component (R24). -/
  mem : μ
deriving DecidableEq, Repr

/-- The start of a run (R26, R205). RUN = 1 is the spec's; PC, REGS, HI, LO and the contents of memory are this model's
choices, logs 2 and 3. -/
def State.reset : State :=
  { pc := Config.resetPc, regs := Vector.replicate 32 Config.resetReg, hi := Config.resetHi, lo := Config.resetLo,
    run := true, mem := [] }

/-- The faults. There is none: "The hardware raises no synchronous exception" (spec/60_exceptions.md R185), no interrupt (R188),
and no primitive of memory fails (spec/20_memory.md R32 (d)); log 16. -/
inductive Fault where
deriving DecidableEq, Repr

/-- Why a step has no next state. -/
inductive Refusal where
  /-- Raised by an arm of `exec` for an instruction without a meaning. No arm raises it. Safe: a run stops. -/
  | notModelled (mnemonic : String)
  /-- Raised by `step`, and by no instruction, in a state with RUN = 0: "a state with `RUN = 0` has no successor and is the end of
  the run" (spec/40_decode_dispatch.md R92). Safe: a run stops; log 5. -/
  | halted
deriving DecidableEq, Repr

/-- What a cycle answers. -/
abbrev Result (μ : Type := Memory) := Host.Outcome (State μ) Fault Refusal

end Sys2Proof.Machine
end

