-- ==== Sys2Proof/Machine/Ops.lean ====
section
/-! DEFINITION. The named operations over registers and memory: register reads and writes, the memory component and its reference
instance, the Byte/Halfword Memory Adapter, the fetch, the default next state.

There is no operation for taking an exception and none for returning from one: "no state is saved, no mode changes, no mask
changes, no stack is switched, control goes nowhere but `next.PC` as computed by the instruction rules" (spec/60_exceptions.md
R190), and "There is no return-from-trap instruction" (R191). -/

namespace Sys2Proof.Machine

/-! ## Registers -/

/-- `x[r]`, a read of a general register. Register 0 is read like any other (R11). -/
def State.reg {μ : Type} (s : State μ) (r : RegIdx) : Word := s.regs[r.val]

/-- `x[r] <- v`. Register 0 is written like any other (R11). -/
def State.setReg {μ : Type} (s : State μ) (r : RegIdx) (v : Word) : State μ := { s with regs := s.regs.set r v }

/-- `pc <- t`. -/
def State.setPc {μ : Type} (s : State μ) (t : Word) : State μ := { s with pc := t }

/-- `HI <- v`. -/
def State.setHi {μ : Type} (s : State μ) (v : Word) : State μ := { s with hi := v }

/-- `LO <- v`. -/
def State.setLo {μ : Type} (s : State μ) (v : Word) : State μ := { s with lo := v }

/-- `HI <- p.1; LO <- p.2`. -/
def State.setHiLo {μ : Type} (s : State μ) (p : Word × Word) : State μ := { s with hi := p.1, lo := p.2 }

/-- `RUN <- 0`; nothing sets RUN (R19). -/
def State.clearRun {μ : Type} (s : State μ) : State μ := { s with run := false }

/-- The `next` an executor arm writes into: a copy of `current` (R21) with the default PC, `current.PC + 4` (R83). -/
def State.defaultNext {μ : Type} (s : State μ) : State μ := s.setPc (s.pc + 4)

/-! ## The contents of memory, one byte at a time -/

/-- The listed byte at an address, if there is one. -/
def Memory.lookup (m : Memory) (a : Nat) : Option Byte :=
  match m with
  | [] => none
  | c :: rest => if c.1 = a then some c.2 else Memory.lookup rest a

/-- List a byte at its place, in the stead of the one listed there. -/
def Memory.insert (m : Memory) (a : Nat) (b : Byte) : Memory :=
  match m with
  | [] => [(a, b)]
  | c :: rest => if c.1 = a then (a, b) :: rest else if a < c.1 then (a, b) :: c :: rest else c :: Memory.insert rest a b

/-- List no byte at an address. -/
def Memory.erase (m : Memory) (a : Nat) : Memory := m.filter fun c => c.1 != a

/-- `B[a]` of spec/20_memory.md R33. -/
def Memory.readByte (m : Memory) (a : Word) : Byte := (Memory.lookup m a.toNat).getD Config.unwrittenByte

/-- `B[a] := b` of R33, keeping the canonical form: a byte as unwritten ones read is not listed. -/
def Memory.writeByte (m : Memory) (a : Word) (b : Byte) : Memory :=
  if b = Config.unwrittenByte then Memory.erase m a.toNat else Memory.insert m a.toNat b

/-- The addresses rise strictly, all above `low`. -/
def Memory.risingFrom (low : Nat) (m : Memory) : Bool :=
  match m with
  | [] => true
  | c :: rest => decide (low ≤ c.1) && Memory.risingFrom (c.1 + 1) rest

/-- The canonical form: addresses of the 32-bit space, strictly rising, and no byte listed that an unlisted address reads as. -/
def Memory.wf (m : Memory) : Bool :=
  Memory.risingFrom 0 m && m.all fun c => decide (c.1 < 2 ^ 32) && c.2 != Config.unwrittenByte

/-! ## The memory component (R31 to R33) -/

/-- A memory component: "the sole memory primitives; alignment/bounds policy is the memory component's responsibility" (R31).
Neither primitive can fail (R32 (d)), and a read changes nothing (R32 (a)). -/
structure MemComponent (μ : Type) where
  readWord : μ → Word → Word
  writeWord : μ → Word → Word → μ
  /-- The words at two addresses share storage: "Which addresses share storage is the memory's own policy" (R32 (c)). -/
  shares : Word → Word → Bool

/-- R32 (b) and (c). -/
structure MemComponent.Contract {μ : Type} (M : MemComponent μ) : Prop where
  read_after_write : ∀ m a v, M.readWord (M.writeWord m a v) a = v
  write_elsewhere : ∀ m a b v, M.shares a b = false → M.readWord (M.writeWord m a v) b = M.readWord m b

/-- `read_word` of MEM_LE (R33): the four bytes from `a`, the lowest address least significant; addresses wrap. -/
def Memory.readWordLE (m : Memory) (a : Word) : Word :=
  wordOfBytes (m.readByte a) (m.readByte (a + 1)) (m.readByte (a + 2)) (m.readByte (a + 3))

/-- `write_word` of MEM_LE (R33). -/
def Memory.writeWordLE (m : Memory) (a v : Word) : Memory :=
  let m1 := Memory.writeByte m a (byteOfWord v 0)
  let m2 := Memory.writeByte m1 (a + 1) (byteOfWord v 1)
  let m3 := Memory.writeByte m2 (a + 2) (byteOfWord v 2)
  Memory.writeByte m3 (a + 3) (byteOfWord v 3)

/-- MEM_LE, the spec's reference memory (R33): any address is accepted, aligned or not. -/
def memLE : MemComponent Memory where
  readWord := Memory.readWordLE
  writeWord := Memory.writeWordLE
  shares a b := decide ((b - a).toNat < 4) || decide ((a - b).toNat < 4)

/-- An address with bits 1:0 cleared. -/
def alignDown (a : Word) : Word := a &&& 0xFFFFFFFC

/-- MEM_ALIGNED, the spec's second instance, "for comparison only" (after R33): bits 1:0 of the address are ignored.
The core over it is `stepOn memAligned` (Machine/AnyMemory.lean; log 22). -/
def memAligned : MemComponent Memory where
  readWord m a := Memory.readWordLE m (alignDown a)
  writeWord m a v := Memory.writeWordLE m (alignDown a) v
  shares a b := alignDown a == alignDown b

/-- The memory component the machine runs on: the spec's reference instance (log 1) of the parameter `MEM` of spec/00_scope.md R4. The core
over every other component is `execOn`, `cycleOn` and `stepOn` (Machine/AnyMemory.lean). -/
def MEM : MemComponent Memory := memLE

/-- The byte of memory at an address, as the frame statements read it. -/
def State.byteAt (s : State) (a : Word) : Byte := s.mem.readByte a

/-! ## The Byte/Halfword Memory Adapter (R35 to R41): each access is to the one word at the unmodified address -/

/-- `MemRead(a, 1)` (R36). -/
def MemComponent.memRead1 {μ : Type} (M : MemComponent μ) (m : μ) (a : Word) : Byte := (M.readWord m a).extractLsb' 0 8

/-- `MemRead(a, 2)` (R37). -/
def MemComponent.memRead2 {μ : Type} (M : MemComponent μ) (m : μ) (a : Word) : Half := (M.readWord m a).extractLsb' 0 16

/-- `MemRead(a, 4)` (R38). -/
def MemComponent.memRead4 {μ : Type} (M : MemComponent μ) (m : μ) (a : Word) : Word := M.readWord m a

/-- `MemWrite(a, 1, v)` (R39): a read and then a write of the word at `a`. -/
def MemComponent.memWrite1 {μ : Type} (M : MemComponent μ) (m : μ) (a : Word) (v : Byte) : μ :=
  M.writeWord m a ((M.readWord m a &&& 0xFFFFFF00) ||| v.setWidth 32)

/-- `MemWrite(a, 2, v)` (R40). -/
def MemComponent.memWrite2 {μ : Type} (M : MemComponent μ) (m : μ) (a : Word) (v : Half) : μ :=
  M.writeWord m a ((M.readWord m a &&& 0xFFFF0000) ||| v.setWidth 32)

/-- `MemWrite(a, 4, v)` (R41): no read. -/
def MemComponent.memWrite4 {μ : Type} (M : MemComponent μ) (m : μ) (a v : Word) : μ := M.writeWord m a v

/-- Stores of one, two and four bytes into the memory of a state; memory "is not double-buffered" (R51). -/
def State.store1 {μ : Type} (s : State μ) (M : MemComponent μ) (a : Word) (v : Byte) : State μ := { s with mem := M.memWrite1 s.mem a v }
def State.store2 {μ : Type} (s : State μ) (M : MemComponent μ) (a : Word) (v : Half) : State μ := { s with mem := M.memWrite2 s.mem a v }
def State.store4 {μ : Type} (s : State μ) (M : MemComponent μ) (a v : Word) : State μ := { s with mem := M.memWrite4 s.mem a v }

/-! ## The fetch -/

/-- `read_word(current.PC)`, PC unmodified (R81; no alignment check, R15, R44), from any memory component. -/
def State.fetchFrom {μ : Type} (s : State μ) (M : MemComponent μ) : Word := M.readWord s.mem s.pc

/-- The fetch of the machine that runs. -/
def State.fetchWord (s : State) : Word := s.fetchFrom MEM

/-- Place a word where the next fetch reads it: the driver's load of a program word (R206). -/
def State.placeWord {μ : Type} (s : State μ) (M : MemComponent μ) (w : Word) : State μ := { s with mem := M.writeWord s.mem s.pc w }

end Sys2Proof.Machine
end

