-- ==== Sys2Proof/Machine/Operands.lean ====
section
/-! DEFINITION. The operand forms: extensions, the derived operands of the decoder (spec/30_encoding.md R58 to R61), branch and jump
destinations; and the arithmetic of the executors (spec/41_alu_register.md). -/

namespace Sys2Proof.Machine

/-! ## Extensions (spec/00_scope.md section 7) -/

def sext8 (b : Byte) : Word := b.signExtend 32
def sext16 (h : Half) : Word := h.signExtend 32
def zext8 (b : Byte) : Word := b.setWidth 32
def zext16 (h : Half) : Word := h.setWidth 32

/-! ## Derived operands -/

/-- `extended_imm` (R58). -/
def extendedImm (imm : Half) : Word := sext16 imm

/-- `offset` (R59), for branches only. -/
def branchOffset (imm : Half) : Word := extendedImm imm <<< 2

/-- `address = x[rs] + extended_imm` (R60, R165): not shifted, not checked; the one addressing mode. -/
def effAddr {μ : Type} (s : State μ) (rs : RegIdx) (imm : Half) : Word := s.reg rs + extendedImm imm

/-- `target` (R61). -/
def jumpTarget (tgt26 : BitVec 26) : Word := tgt26.setWidth 32 <<< 2

/-- A jump's destination, with the top 4 bits of the current PC (R147). -/
def jumpDest (pc : Word) (tgt26 : BitVec 26) : Word := (pc &&& 0xF0000000) ||| jumpTarget tgt26

/-- A taken branch's destination, `(pc + 4) + offset` (R146). -/
def branchDest (pc : Word) (imm : Half) : Word := (pc + 4) + branchOffset imm

/-- The link value, `pc + 4` (R148). -/
def linkValue (pc : Word) : Word := pc + 4

/-- The implicit link register of JAL, BLTZAL and BGEZAL (R160). -/
def linkReg : RegIdx := 31

/-- The next state of a branch: the destination if the condition holds of `current`, else the default PC stands. -/
def State.branchIf {μ : Type} (next : State μ) (taken : Bool) (pc : Word) (imm : Half) : State μ :=
  if taken then next.setPc (branchDest pc imm) else next

/-- LUI's operand: the raw field in the upper half (R138). -/
def luiValue (imm : Half) : Word := zext16 imm <<< 16

/-- The amount of a variable shift: `x[rs][4:0]` (R99, log 8). -/
def shiftAmount (v : Word) : Nat := (v.extractLsb' 0 5).toNat

/-! ## Shifts (R96 to R98) -/

def shiftLeft (v : Word) (n : Nat) : Word := v <<< n
def shiftRightLogical (v : Word) (n : Nat) : Word := v >>> n
def shiftRightArith (v : Word) (n : Nat) : Word := v.sshiftRight n

/-! ## Multiply and divide: exact, then narrowed; each answers (HI, LO) -/

/-- The upper and lower halves of a 64-bit value. -/
def splitHiLo (p : BitVec 64) : Word × Word := (p.extractLsb' 32 32, p.extractLsb' 0 32)

/-- MULT (R113). -/
def multiplySigned (a b : Word) : Word × Word := splitHiLo (BitVec.ofInt 64 (a.toInt * b.toInt))

/-- MULTU (R114). -/
def multiplyUnsigned (a b : Word) : Word × Word := splitHiLo (BitVec.ofNat 64 (a.toNat * b.toNat))

/-- The policies the spec takes: a division by zero leaves HI and LO (R117, log 6), and -2^31 / -1 leaves the wrapped quotient
and the remainder 0 (R118, log 7). -/
def divPolicy : DivPolicy where
  onZero _ hi lo := (hi, lo)
  onOverflow _ _ := (0x00000000, 0x80000000)

/-- DIV (R115): the quotient rounded toward zero in LO, `a - q * b` in HI. -/
def divideSigned (P : DivPolicy) (a b hi lo : Word) : Word × Word :=
  if b = 0 then P.onZero a hi lo
  else if a = 0x80000000 ∧ b = 0xFFFFFFFF then P.onOverflow hi lo
  else
    let q := Int.tdiv a.toInt b.toInt
    (BitVec.ofInt 32 (a.toInt - q * b.toInt), BitVec.ofInt 32 q)

/-- DIVU (R116). -/
def divideUnsigned (P : DivPolicy) (a b hi lo : Word) : Word × Word :=
  if b = 0 then P.onZero a hi lo
  else (BitVec.ofNat 32 (a.toNat % b.toNat), BitVec.ofNat 32 (a.toNat / b.toNat))

end Sys2Proof.Machine
end

