-- ==== Sys2Proof/Machine/Flags.lean ====
section
/-! DEFINITION. Comparisons. The machine has no flag: "There are no condition codes, status flags or predicate registers. Comparison
results are written as the value 1 or 0 into a general register ... or consumed at once by a branch" (spec/10_state.md R17). -/

namespace Sys2Proof.Machine

/-- `a <s b` (spec/00_scope.md section 7). -/
def lessSigned (a b : Word) : Bool := decide (a.toInt < b.toInt)

/-- `a <u b`. -/
def lessUnsigned (a b : Word) : Bool := decide (a.toNat < b.toNat)

/-- The result of a set-on-less-than: 1 or 0 (R111). -/
def boolWord (c : Bool) : Word := if c then 1 else 0

/-- `signed(v) < 0` (R155). -/
def isNegative (v : Word) : Bool := decide (v.toInt < 0)

/-- `signed(v) <= 0` (R153). -/
def isNonPositive (v : Word) : Bool := decide (v.toInt ≤ 0)

end Sys2Proof.Machine
end

