-- ==== Sys2Proof/Machine/AluImmediate.lean ====
section
/-! DEFINITION. The 8 register-immediate instructions of the Arithmetic/Logical Executor (spec/42_alu_immediate.md); the destination is `rt`
(R130), and the logical ones sign-extend their immediate too. -/

namespace Sys2Proof.Machine

variable {μ : Type}

/-- ADDI (R131): wraps, and never traps. -/
def execAddi (rt rs : RegIdx) (imm : Half) (s : State μ) : Result μ :=
  .next (s.defaultNext.setReg rt (s.reg rs + extendedImm imm))

/-- ADDIU (R132). -/
def execAddiu (rt rs : RegIdx) (imm : Half) (s : State μ) : Result μ :=
  .next (s.defaultNext.setReg rt (s.reg rs + extendedImm imm))

/-- SLTI (R133). -/
def execSlti (rt rs : RegIdx) (imm : Half) (s : State μ) : Result μ :=
  .next (s.defaultNext.setReg rt (boolWord (lessSigned (s.reg rs) (extendedImm imm))))

/-- SLTIU (R134): the immediate is sign-extended, the comparison unsigned. -/
def execSltiu (rt rs : RegIdx) (imm : Half) (s : State μ) : Result μ :=
  .next (s.defaultNext.setReg rt (boolWord (lessUnsigned (s.reg rs) (extendedImm imm))))

/-- ANDI (R135): the immediate is sign-extended. -/
def execAndi (rt rs : RegIdx) (imm : Half) (s : State μ) : Result μ :=
  .next (s.defaultNext.setReg rt (s.reg rs &&& extendedImm imm))

/-- ORI (R136): the immediate is sign-extended. -/
def execOri (rt rs : RegIdx) (imm : Half) (s : State μ) : Result μ :=
  .next (s.defaultNext.setReg rt (s.reg rs ||| extendedImm imm))

/-- XORI (R137): the immediate is sign-extended. -/
def execXori (rt rs : RegIdx) (imm : Half) (s : State μ) : Result μ :=
  .next (s.defaultNext.setReg rt (s.reg rs ^^^ extendedImm imm))

/-- LUI (R138): no register is read. -/
def execLui (rt : RegIdx) (imm : Half) (s : State μ) : Result μ :=
  .next (s.defaultNext.setReg rt (luiValue imm))

end Sys2Proof.Machine
end

