-- ==== Sys2Proof/Machine/AluRegister.lean ====
section
/-! DEFINITION. The 24 register-register instructions of the Arithmetic/Logical Executor (spec/41_alu_register.md). Every operand is read from `s`, the
spec's `current`; every result is written into `s.defaultNext`, its `next` (R20, R88, R95). -/

namespace Sys2Proof.Machine

variable {μ : Type}

/-- SLL (R96). -/
def execSll (rd rt : RegIdx) (shamt : Nat) (s : State μ) : Result μ :=
  .next (s.defaultNext.setReg rd (shiftLeft (s.reg rt) shamt))

/-- SRL (R97). -/
def execSrl (rd rt : RegIdx) (shamt : Nat) (s : State μ) : Result μ :=
  .next (s.defaultNext.setReg rd (shiftRightLogical (s.reg rt) shamt))

/-- SRA (R98). -/
def execSra (rd rt : RegIdx) (shamt : Nat) (s : State μ) : Result μ :=
  .next (s.defaultNext.setReg rd (shiftRightArith (s.reg rt) shamt))

/-- SLLV (R100). -/
def execSllv (rd rt rs : RegIdx) (s : State μ) : Result μ :=
  .next (s.defaultNext.setReg rd (shiftLeft (s.reg rt) (shiftAmount (s.reg rs))))

/-- SRLV (R101). -/
def execSrlv (rd rt rs : RegIdx) (s : State μ) : Result μ :=
  .next (s.defaultNext.setReg rd (shiftRightLogical (s.reg rt) (shiftAmount (s.reg rs))))

/-- SRAV (R102). -/
def execSrav (rd rt rs : RegIdx) (s : State μ) : Result μ :=
  .next (s.defaultNext.setReg rd (shiftRightArith (s.reg rt) (shiftAmount (s.reg rs))))

/-- ADD (R103): wraps, and never traps. -/
def execAdd (rd rs rt : RegIdx) (s : State μ) : Result μ :=
  .next (s.defaultNext.setReg rd (s.reg rs + s.reg rt))

/-- ADDU (R104). -/
def execAddu (rd rs rt : RegIdx) (s : State μ) : Result μ :=
  .next (s.defaultNext.setReg rd (s.reg rs + s.reg rt))

/-- SUB (R105): wraps, and never traps. -/
def execSub (rd rs rt : RegIdx) (s : State μ) : Result μ :=
  .next (s.defaultNext.setReg rd (s.reg rs - s.reg rt))

/-- SUBU (R106). -/
def execSubu (rd rs rt : RegIdx) (s : State μ) : Result μ :=
  .next (s.defaultNext.setReg rd (s.reg rs - s.reg rt))

/-- AND (R107). -/
def execAnd (rd rs rt : RegIdx) (s : State μ) : Result μ :=
  .next (s.defaultNext.setReg rd (s.reg rs &&& s.reg rt))

/-- OR (R108). -/
def execOr (rd rs rt : RegIdx) (s : State μ) : Result μ :=
  .next (s.defaultNext.setReg rd (s.reg rs ||| s.reg rt))

/-- XOR (R109). -/
def execXor (rd rs rt : RegIdx) (s : State μ) : Result μ :=
  .next (s.defaultNext.setReg rd (s.reg rs ^^^ s.reg rt))

/-- NOR (R110). -/
def execNor (rd rs rt : RegIdx) (s : State μ) : Result μ :=
  .next (s.defaultNext.setReg rd (~~~(s.reg rs ||| s.reg rt)))

/-- SLT (R111). -/
def execSlt (rd rs rt : RegIdx) (s : State μ) : Result μ :=
  .next (s.defaultNext.setReg rd (boolWord (lessSigned (s.reg rs) (s.reg rt))))

/-- SLTU (R112). -/
def execSltu (rd rs rt : RegIdx) (s : State μ) : Result μ :=
  .next (s.defaultNext.setReg rd (boolWord (lessUnsigned (s.reg rs) (s.reg rt))))

/-- MULT (R113). -/
def execMult (rs rt : RegIdx) (s : State μ) : Result μ :=
  .next (s.defaultNext.setHiLo (multiplySigned (s.reg rs) (s.reg rt)))

/-- MULTU (R114). -/
def execMultu (rs rt : RegIdx) (s : State μ) : Result μ :=
  .next (s.defaultNext.setHiLo (multiplyUnsigned (s.reg rs) (s.reg rt)))

/-- DIV under any policy of division by zero and of overflow. -/
def execDivWith (P : DivPolicy) (rs rt : RegIdx) (s : State μ) : Result μ :=
  .next (s.defaultNext.setHiLo (divideSigned P (s.reg rs) (s.reg rt) s.hi s.lo))

/-- DIV (R115, R117, R118). -/
def execDiv (rs rt : RegIdx) (s : State μ) : Result μ :=
  execDivWith divPolicy rs rt s

/-- DIVU under any policy of division by zero. -/
def execDivuWith (P : DivPolicy) (rs rt : RegIdx) (s : State μ) : Result μ :=
  .next (s.defaultNext.setHiLo (divideUnsigned P (s.reg rs) (s.reg rt) s.hi s.lo))

/-- DIVU (R116, R117). -/
def execDivu (rs rt : RegIdx) (s : State μ) : Result μ :=
  execDivuWith divPolicy rs rt s

/-- MFHI (R119). -/
def execMfhi (rd : RegIdx) (s : State μ) : Result μ :=
  .next (s.defaultNext.setReg rd s.hi)

/-- MFLO (R120). -/
def execMflo (rd : RegIdx) (s : State μ) : Result μ :=
  .next (s.defaultNext.setReg rd s.lo)

/-- MTHI (R121): LO is unchanged. -/
def execMthi (rs : RegIdx) (s : State μ) : Result μ :=
  .next (s.defaultNext.setHi (s.reg rs))

/-- MTLO (R122): HI is unchanged. -/
def execMtlo (rs : RegIdx) (s : State μ) : Result μ :=
  .next (s.defaultNext.setLo (s.reg rs))

end Sys2Proof.Machine
end

