-- ==== Sys2Proof/Machine/ControlFlow.lean ====
section
/-! DEFINITION. The 12 instructions of the Control-Flow Executor (spec/43_control_flow.md). There is no delay slot: the destination is the very
next PC (R145). No destination is checked or aligned (R159). -/

namespace Sys2Proof.Machine

variable {μ : Type}

/-- J (R147). -/
def execJ (tgt26 : BitVec 26) (s : State μ) : Result μ :=
  .next (s.defaultNext.setPc (jumpDest s.pc tgt26))

/-- JAL (R148). -/
def execJal (tgt26 : BitVec 26) (s : State μ) : Result μ :=
  .next ((s.defaultNext.setReg linkReg (linkValue s.pc)).setPc (jumpDest s.pc tgt26))

/-- JR (R149): all 32 bits, no alignment check. -/
def execJr (rs : RegIdx) (s : State μ) : Result μ :=
  .next (s.defaultNext.setPc (s.reg rs))

/-- JALR (R150): with `rd = rs` the jump goes to the old value. -/
def execJalr (rd rs : RegIdx) (s : State μ) : Result μ :=
  .next ((s.defaultNext.setReg rd (linkValue s.pc)).setPc (s.reg rs))

/-- BEQ (R151). -/
def execBeq (rs rt : RegIdx) (imm : Half) (s : State μ) : Result μ :=
  .next (s.defaultNext.branchIf (s.reg rs == s.reg rt) s.pc imm)

/-- BNE (R152). -/
def execBne (rs rt : RegIdx) (imm : Half) (s : State μ) : Result μ :=
  .next (s.defaultNext.branchIf (s.reg rs != s.reg rt) s.pc imm)

/-- BLEZ (R153). -/
def execBlez (rs : RegIdx) (imm : Half) (s : State μ) : Result μ :=
  .next (s.defaultNext.branchIf (isNonPositive (s.reg rs)) s.pc imm)

/-- BGTZ (R154). -/
def execBgtz (rs : RegIdx) (imm : Half) (s : State μ) : Result μ :=
  .next (s.defaultNext.branchIf (!isNonPositive (s.reg rs)) s.pc imm)

/-- BLTZ (R155). -/
def execBltz (rs : RegIdx) (imm : Half) (s : State μ) : Result μ :=
  .next (s.defaultNext.branchIf (isNegative (s.reg rs)) s.pc imm)

/-- BGEZ (R156). -/
def execBgez (rs : RegIdx) (imm : Half) (s : State μ) : Result μ :=
  .next (s.defaultNext.branchIf (!isNegative (s.reg rs)) s.pc imm)

/-- BLTZAL (R157): the link is written whether or not the branch is taken; with `rs` = 31 the condition reads the old value. -/
def execBltzal (rs : RegIdx) (imm : Half) (s : State μ) : Result μ :=
  .next ((s.defaultNext.setReg linkReg (linkValue s.pc)).branchIf (isNegative (s.reg rs)) s.pc imm)

/-- BGEZAL (R158): the link is written whether or not the branch is taken; with `rs` = 31 the condition reads the old value. -/
def execBgezal (rs : RegIdx) (imm : Half) (s : State μ) : Result μ :=
  .next ((s.defaultNext.setReg linkReg (linkValue s.pc)).branchIf (!isNegative (s.reg rs)) s.pc imm)

end Sys2Proof.Machine
end

