-- ==== Sys2Proof/Machine/MemoryAccess.lean ====
section
/-! DEFINITION. The 8 instructions of the Memory-Access Executor (spec/44_memory_access.md), over the Byte/Halfword Memory Adapter. No address
is checked, and the base register is never modified (R165, R175). Each is written over any memory component (the parameter `MEM` of
spec/00_scope.md R4), and once more at the component the machine runs on. -/

namespace Sys2Proof.Machine

variable {μ : Type}

/-- LB (R166) over any memory component. -/
def execLbOn (M : MemComponent μ) (rt : RegIdx) (imm : Half) (rs : RegIdx) (s : State μ) : Result μ :=
  .next (s.defaultNext.setReg rt (sext8 (M.memRead1 s.mem (effAddr s rs imm))))

/-- LB (R166). -/
def execLb (rt : RegIdx) (imm : Half) (rs : RegIdx) (s : State) : Result :=
  execLbOn MEM rt imm rs s

/-- LH (R167) over any memory component. -/
def execLhOn (M : MemComponent μ) (rt : RegIdx) (imm : Half) (rs : RegIdx) (s : State μ) : Result μ :=
  .next (s.defaultNext.setReg rt (sext16 (M.memRead2 s.mem (effAddr s rs imm))))

/-- LH (R167). -/
def execLh (rt : RegIdx) (imm : Half) (rs : RegIdx) (s : State) : Result :=
  execLhOn MEM rt imm rs s

/-- LW (R168) over any memory component. -/
def execLwOn (M : MemComponent μ) (rt : RegIdx) (imm : Half) (rs : RegIdx) (s : State μ) : Result μ :=
  .next (s.defaultNext.setReg rt (M.memRead4 s.mem (effAddr s rs imm)))

/-- LW (R168). -/
def execLw (rt : RegIdx) (imm : Half) (rs : RegIdx) (s : State) : Result :=
  execLwOn MEM rt imm rs s

/-- LBU (R169) over any memory component. -/
def execLbuOn (M : MemComponent μ) (rt : RegIdx) (imm : Half) (rs : RegIdx) (s : State μ) : Result μ :=
  .next (s.defaultNext.setReg rt (zext8 (M.memRead1 s.mem (effAddr s rs imm))))

/-- LBU (R169). -/
def execLbu (rt : RegIdx) (imm : Half) (rs : RegIdx) (s : State) : Result :=
  execLbuOn MEM rt imm rs s

/-- LHU (R170) over any memory component. -/
def execLhuOn (M : MemComponent μ) (rt : RegIdx) (imm : Half) (rs : RegIdx) (s : State μ) : Result μ :=
  .next (s.defaultNext.setReg rt (zext16 (M.memRead2 s.mem (effAddr s rs imm))))

/-- LHU (R170). -/
def execLhu (rt : RegIdx) (imm : Half) (rs : RegIdx) (s : State) : Result :=
  execLhuOn MEM rt imm rs s

/-- SB (R171) over any memory component. -/
def execSbOn (M : MemComponent μ) (rt : RegIdx) (imm : Half) (rs : RegIdx) (s : State μ) : Result μ :=
  .next (s.defaultNext.store1 M (effAddr s rs imm) ((s.reg rt).extractLsb' 0 8))

/-- SB (R171). -/
def execSb (rt : RegIdx) (imm : Half) (rs : RegIdx) (s : State) : Result :=
  execSbOn MEM rt imm rs s

/-- SH (R172) over any memory component. -/
def execShOn (M : MemComponent μ) (rt : RegIdx) (imm : Half) (rs : RegIdx) (s : State μ) : Result μ :=
  .next (s.defaultNext.store2 M (effAddr s rs imm) ((s.reg rt).extractLsb' 0 16))

/-- SH (R172). -/
def execSh (rt : RegIdx) (imm : Half) (rs : RegIdx) (s : State) : Result :=
  execShOn MEM rt imm rs s

/-- SW (R173) over any memory component. -/
def execSwOn (M : MemComponent μ) (rt : RegIdx) (imm : Half) (rs : RegIdx) (s : State μ) : Result μ :=
  .next (s.defaultNext.store4 M (effAddr s rs imm) (s.reg rt))

/-- SW (R173). -/
def execSw (rt : RegIdx) (imm : Half) (rs : RegIdx) (s : State) : Result :=
  execSwOn MEM rt imm rs s

end Sys2Proof.Machine
end

