-- ==== Sys2Proof/Machine/System.lean ====
section
/-! DEFINITION. SYSCALL (spec/45_system.md) and the no-op of the unassigned words. The system instructions of standard MIPS-I are among the
unassigned words (R182). -/

namespace Sys2Proof.Machine

variable {μ : Type}

/-- The service number that halts, in register 2 (R180). -/
def haltCode : Word := 0x0000000A

/-- The register SYSCALL inspects (R160, R180). -/
def serviceReg : RegIdx := 2

/-- SYSCALL (R180): all 32 bits are compared; the PC advances in both cases; nothing else changes. -/
def execSyscall (s : State μ) : Result μ :=
  .next (if s.reg serviceReg = haltCode then s.defaultNext.clearRun else s.defaultNext)

/-- The meaning of every unassigned word, whatever the level that found nothing: "a no-op for register/memory state: only the
default `next.PC = current.PC + 4` takes effect" (spec/40_decode_dispatch.md R89). -/
def execUnassigned (_ : Unassigned) (s : State μ) : Result μ :=
  .next s.defaultNext

end Sys2Proof.Machine
end

