-- ==== Sys2Proof/Machine/AnyMemory.lean ====
section
/-! DEFINITION. The core over any memory component: "every core rule is stated for arbitrary `MEM`" (spec/92_eei_decisions.md D4; spec/00_scope.md
R4, spec/93_implementation_defined.md U3). The machine that runs is this core at `MEM`, whose arms are in Machine/Dispatch.lean; both call
the same meanings. -/

namespace Sys2Proof.Machine

variable {μ : Type}

/-- The Dispatcher's routing (spec/40_decode_dispatch.md R87) over any memory component: only the loads and stores see it. -/
def execOn (M : MemComponent μ) (i : Instr) (s : State μ) : Result μ :=
  match i with
  | .sll rd rt shamt => execSll rd rt shamt s
  | .srl rd rt shamt => execSrl rd rt shamt s
  | .sra rd rt shamt => execSra rd rt shamt s
  | .sllv rd rt rs => execSllv rd rt rs s
  | .srlv rd rt rs => execSrlv rd rt rs s
  | .srav rd rt rs => execSrav rd rt rs s
  | .jr rs => execJr rs s
  | .jalr rd rs => execJalr rd rs s
  | .syscall => execSyscall s
  | .mfhi rd => execMfhi rd s
  | .mthi rs => execMthi rs s
  | .mflo rd => execMflo rd s
  | .mtlo rs => execMtlo rs s
  | .mult rs rt => execMult rs rt s
  | .multu rs rt => execMultu rs rt s
  | .div rs rt => execDiv rs rt s
  | .divu rs rt => execDivu rs rt s
  | .add rd rs rt => execAdd rd rs rt s
  | .addu rd rs rt => execAddu rd rs rt s
  | .sub rd rs rt => execSub rd rs rt s
  | .subu rd rs rt => execSubu rd rs rt s
  | .and rd rs rt => execAnd rd rs rt s
  | .or rd rs rt => execOr rd rs rt s
  | .xor rd rs rt => execXor rd rs rt s
  | .nor rd rs rt => execNor rd rs rt s
  | .slt rd rs rt => execSlt rd rs rt s
  | .sltu rd rs rt => execSltu rd rs rt s
  | .bltz rs imm => execBltz rs imm s
  | .bgez rs imm => execBgez rs imm s
  | .bltzal rs imm => execBltzal rs imm s
  | .bgezal rs imm => execBgezal rs imm s
  | .j tgt26 => execJ tgt26 s
  | .jal tgt26 => execJal tgt26 s
  | .beq rs rt imm => execBeq rs rt imm s
  | .bne rs rt imm => execBne rs rt imm s
  | .blez rs imm => execBlez rs imm s
  | .bgtz rs imm => execBgtz rs imm s
  | .addi rt rs imm => execAddi rt rs imm s
  | .addiu rt rs imm => execAddiu rt rs imm s
  | .slti rt rs imm => execSlti rt rs imm s
  | .sltiu rt rs imm => execSltiu rt rs imm s
  | .andi rt rs imm => execAndi rt rs imm s
  | .ori rt rs imm => execOri rt rs imm s
  | .xori rt rs imm => execXori rt rs imm s
  | .lui rt imm => execLui rt imm s
  | .lb rt imm rs => execLbOn M rt imm rs s
  | .lh rt imm rs => execLhOn M rt imm rs s
  | .lw rt imm rs => execLwOn M rt imm rs s
  | .lbu rt imm rs => execLbuOn M rt imm rs s
  | .lhu rt imm rs => execLhuOn M rt imm rs s
  | .sb rt imm rs => execSbOn M rt imm rs s
  | .sh rt imm rs => execShOn M rt imm rs s
  | .sw rt imm rs => execSwOn M rt imm rs s

/-- One cycle over any memory component, whatever RUN (R80, R19): the word fetched is `read_word(current.PC)` (R81). -/
def cycleOn (M : MemComponent μ) (s : State μ) : Result μ :=
  match decode (s.fetchFrom M) with
  | .instr i => execOn M i s
  | .unassigned u => execUnassigned u s

/-- The step over any memory component: a cycle is taken only while RUN = 1 (R92; log 5). -/
def stepOn (M : MemComponent μ) (s : State μ) : Result μ :=
  if s.run then cycleOn M s else .refused .halted

end Sys2Proof.Machine
end

