-- ==== Sys2Proof/Machine/Step.lean ====
section
/-! DEFINITION. The cycle (spec/40_decode_dispatch.md R80): fetch, decode, execute; and the step, a cycle taken while RUN = 1. -/

namespace Sys2Proof.Machine

/-- One cycle, whatever RUN: "The core never reads `RUN`" (spec/10_state.md R19). -/
def cycle (s : State) : Host.Outcome State Fault Refusal :=
  match decode s.fetchWord with
  | .instr i => exec i s
  | .unassigned u => execUnassigned u s

/-- "the machine takes a cycle only while `RUN = 1`; a state with `RUN = 0` has no successor" (R92; log 5). -/
def step (s : State) : Host.Outcome State Fault Refusal :=
  if s.run then cycle s else .refused .halted

/-- `s` with the word that spec/opcode_table.json numbers as `nbits` bits `w` where the next step fetches, and RUN set, since a step
fetches only then. It stands for the driver's load of a program word (spec/70_reset_and_hazards.md R206; log 4). -/
def State.withFetchWord (s : State) (nbits w : Nat) : State :=
  { s.placeWord MEM (tableWord nbits w) with run := true }

end Sys2Proof.Machine
end

