-- ==== Sys2Proof/Safety.lean ====
section
/-! DEFINITION. The terms claims are made in: what an instruction completes with, what it leaves unchanged, the tables of the spec that
speak of all instructions, and the invariant. -/

namespace Sys2Proof

open Machine

/-! ## Tables over all instructions -/

/-- The general register an instruction writes (the table of spec/10_state.md R13). -/
def Instr.dest : Instr → Option RegIdx
  | .sll rd _ _ | .srl rd _ _ | .sra rd _ _ | .sllv rd _ _ | .srlv rd _ _ | .srav rd _ _ => some rd
  | .add rd _ _ | .addu rd _ _ | .sub rd _ _ | .subu rd _ _ | .and rd _ _ | .or rd _ _ | .xor rd _ _ | .nor rd _ _
  | .slt rd _ _ | .sltu rd _ _ => some rd
  | .mfhi rd | .mflo rd | .jalr rd _ => some rd
  | .addi rt _ _ | .addiu rt _ _ | .slti rt _ _ | .sltiu rt _ _ | .andi rt _ _ | .ori rt _ _ | .xori rt _ _ | .lui rt _ => some rt
  | .lb rt _ _ | .lh rt _ _ | .lw rt _ _ | .lbu rt _ _ | .lhu rt _ _ => some rt
  | .bltzal _ _ | .bgezal _ _ | .jal _ => some 31
  | .mult _ _ | .multu _ _ | .div _ _ | .divu _ _ | .mthi _ | .mtlo _ | .jr _ | .syscall | .sb _ _ _ | .sh _ _ _ | .sw _ _ _
  | .beq _ _ _ | .bne _ _ _ | .blez _ _ | .bgtz _ _ | .bltz _ _ | .bgez _ _ | .j _ => none

/-- The general registers an instruction reads (the table of R13). -/
def Instr.reads : Instr → List RegIdx
  | .sll _ rt _ | .srl _ rt _ | .sra _ rt _ => [rt]
  | .sllv _ rt rs | .srlv _ rt rs | .srav _ rt rs => [rt, rs]
  | .add _ rs rt | .addu _ rs rt | .sub _ rs rt | .subu _ rs rt | .and _ rs rt | .or _ rs rt | .xor _ rs rt | .nor _ rs rt
  | .slt _ rs rt | .sltu _ rs rt => [rs, rt]
  | .mult rs rt | .multu rs rt | .div rs rt | .divu rs rt => [rs, rt]
  | .mfhi _ | .mflo _ => []
  | .mthi rs | .mtlo rs | .jr rs | .jalr _ rs => [rs]
  | .syscall => [2]
  | .addi _ rs _ | .addiu _ rs _ | .slti _ rs _ | .sltiu _ rs _ | .andi _ rs _ | .ori _ rs _ | .xori _ rs _ => [rs]
  | .lui _ _ => []
  | .lb _ _ rs | .lh _ _ rs | .lw _ _ rs | .lbu _ _ rs | .lhu _ _ rs => [rs]
  | .sb rt _ rs | .sh rt _ rs | .sw rt _ rs => [rs, rt]
  | .beq rs rt _ | .bne rs rt _ => [rs, rt]
  | .blez rs _ | .bgtz rs _ | .bltz rs _ | .bgez rs _ | .bltzal rs _ | .bgezal rs _ => [rs]
  | .j _ | .jal _ => []

/-- "They are written only by MULT, MULTU ..., DIV, DIVU ..., MTHI and MTLO" (R16): HI. -/
def Instr.writesHi (i : Instr) : Prop :=
  (∃ rs rt, i = .mult rs rt ∨ i = .multu rs rt ∨ i = .div rs rt ∨ i = .divu rs rt) ∨ ∃ rs, i = .mthi rs

/-- R16: LO. -/
def Instr.writesLo (i : Instr) : Prop :=
  (∃ rs rt, i = .mult rs rt ∨ i = .multu rs rt ∨ i = .div rs rt ∨ i = .divu rs rt) ∨ ∃ rs, i = .mtlo rs

/-- The instructions that change memory (R21). -/
def Instr.isStore (i : Instr) : Prop := ∃ rt imm rs, i = .sb rt imm rs ∨ i = .sh rt imm rs ∨ i = .sw rt imm rs

/-- The instructions that read memory beside the fetch and write a register (spec/44_memory_access.md R166 to R170). -/
def Instr.isLoad (i : Instr) : Prop :=
  ∃ rt imm rs, i = .lb rt imm rs ∨ i = .lh rt imm rs ∨ i = .lw rt imm rs ∨ i = .lbu rt imm rs ∨ i = .lhu rt imm rs

/-- A jump, or a branch whose condition holds: "condition for the transfer" in the table of spec/43_control_flow.md R161. -/
def Instr.transfers {μ : Type} : Instr → State μ → Prop
  | .j _, _ | .jal _, _ | .jr _, _ | .jalr _ _, _ => True
  | .beq rs rt _, s => s.reg rs = s.reg rt
  | .bne rs rt _, s => s.reg rs ≠ s.reg rt
  | .blez rs _, s => (s.reg rs).toInt ≤ 0
  | .bgtz rs _, s => 0 < (s.reg rs).toInt
  | .bltz rs _, s | .bltzal rs _, s => (s.reg rs).toInt < 0
  | .bgez rs _, s | .bgezal rs _, s => 0 ≤ (s.reg rs).toInt
  | .sll .., _ | .srl .., _ | .sra .., _ | .sllv .., _ | .srlv .., _ | .srav .., _ | .syscall, _ | .mfhi .., _ | .mthi .., _
  | .mflo .., _ | .mtlo .., _ | .mult .., _ | .multu .., _ | .div .., _ | .divu .., _ | .add .., _ | .addu .., _ | .sub .., _
  | .subu .., _ | .and .., _ | .or .., _ | .xor .., _ | .nor .., _ | .slt .., _ | .sltu .., _ | .addi .., _ | .addiu .., _
  | .slti .., _ | .sltiu .., _ | .andi .., _ | .ori .., _ | .xori .., _ | .lui .., _ | .lb .., _ | .lh .., _ | .lw .., _
  | .lbu .., _ | .lhu .., _ | .sb .., _ | .sh .., _ | .sw .., _ => False

end Sys2Proof

namespace Sys2Proof.Machine

/-! ## Completion -/

/-- The instruction answers a next state, and that state is as `P` says. -/
def Completes (i : Instr) (s : State) (P : State → Prop) : Prop := ∃ t, exec i s = .next t ∧ P t

/-- The same of the core over a memory component. -/
def CompletesOn {μ : Type} (M : MemComponent μ) (i : Instr) (s : State μ) (P : State μ → Prop) : Prop := ∃ t, execOn M i s = .next t ∧ P t

/-- Every word with the fixed bits `fixed` under `mask` decodes to the instruction whose operands are read from its fields: the
Encoding line of an instruction's rule. -/
def EncodedAs (mask fixed : Word) (f : Word → Instr) : Prop := ∀ w : Word, w &&& mask = fixed → decode w = .instr (f w)

/-! ## Frames (the frame rule, spec/10_state.md R21) -/

/-- Every byte of memory reads as before. -/
def SameMemory (s t : State) : Prop := ∀ a, t.byteAt a = s.byteAt a

def SameRegs {μ ν : Type} (s : State μ) (t : State ν) : Prop := ∀ r, t.reg r = s.reg r

def SameRegsBut {μ ν : Type} (rd : RegIdx) (s : State μ) (t : State ν) : Prop := ∀ r, r ≠ rd → t.reg r = s.reg r

def SameHiLo {μ ν : Type} (s : State μ) (t : State ν) : Prop := t.hi = s.hi ∧ t.lo = s.lo

/-- Two states, over any memories, with the same PC, general registers, HI, LO and RUN: all of a state but the contents of memory. -/
def SameCore {μ ν : Type} (s : State μ) (t : State ν) : Prop := t.pc = s.pc ∧ SameRegs s t ∧ SameHiLo s t ∧ t.run = s.run

/-- `WritesReg`, below, over any memory: the contents of memory are as they were. -/
def WritesRegOn {μ : Type} (s : State μ) (rd : RegIdx) (P : Word → Prop) (t : State μ) : Prop :=
  P (t.reg rd) ∧ SameRegsBut rd s t ∧ SameHiLo s t ∧ t.run = s.run ∧ t.mem = s.mem ∧ t.pc = s.pc + 4

/-- From `s` to `t` general register `rd` becomes a value as `P` says, the PC advances by 4, and nothing else changes. -/
def WritesReg (s : State) (rd : RegIdx) (P : Word → Prop) (t : State) : Prop :=
  P (t.reg rd) ∧ SameRegsBut rd s t ∧ SameHiLo s t ∧ t.run = s.run ∧ SameMemory s t ∧ t.pc = s.pc + 4

/-- From `s` to `t` HI and LO become values as `P` says, the PC advances by 4, and nothing else changes. -/
def WritesHiLo (s : State) (P : Word → Word → Prop) (t : State) : Prop :=
  P t.hi t.lo ∧ SameRegs s t ∧ t.run = s.run ∧ SameMemory s t ∧ t.pc = s.pc + 4

/-- From `s` to `t` the PC becomes `dest`, and nothing else changes. -/
def SetsPc (s : State) (dest : Word) (t : State) : Prop :=
  t.pc = dest ∧ SameRegs s t ∧ SameHiLo s t ∧ t.run = s.run ∧ SameMemory s t

/-- From `s` to `t` the PC becomes `dest`, general register `link` becomes the address after the instruction, and nothing else changes. -/
def SetsPcAndLinks (s : State) (link : RegIdx) (dest : Word) (t : State) : Prop :=
  t.pc = dest ∧ t.reg link = s.pc + 4 ∧ SameRegsBut link s t ∧ SameHiLo s t ∧ t.run = s.run ∧ SameMemory s t

/-- From `s` to `t` memory becomes `m`, the PC advances by 4, and nothing else changes. -/
def WritesMemory {μ : Type} (s : State μ) (m : μ) (t : State μ) : Prop :=
  t.mem = m ∧ SameRegs s t ∧ SameHiLo s t ∧ t.run = s.run ∧ t.pc = s.pc + 4

/-- A branch's next PC (spec/43_control_flow.md R146): `pc + 4 + 4 * signed(imm)` where the condition holds, else `pc + 4`. -/
def branchTarget (pc : Word) (imm : Half) : Word := BitVec.ofInt 32 (pc.toNat + 4 + 4 * imm.toInt)

/-! ## The unassigned words -/

/-- A word none of the 53 instructions has (the lists after spec/30_encoding.md R62, R63, R64). -/
def UnassignedWord (w : Word) : Prop :=
  (fieldOp w).toNat ∈ [0x10, 0x11, 0x12, 0x13, 0x14, 0x15, 0x16, 0x17, 0x18, 0x19, 0x1A, 0x1B, 0x1C, 0x1D, 0x1E, 0x1F, 0x22, 0x26, 0x27,
      0x2A, 0x2C, 0x2D, 0x2E, 0x2F, 0x30, 0x31, 0x32, 0x33, 0x34, 0x35, 0x36, 0x37, 0x38, 0x39, 0x3A, 0x3B, 0x3C, 0x3D, 0x3E, 0x3F] ∨
    ((fieldOp w).toNat = 0x00 ∧
      (fieldFunct w).toNat ∈ [0x01, 0x05, 0x0A, 0x0B, 0x0D, 0x0E, 0x0F, 0x14, 0x15, 0x16, 0x17, 0x1C, 0x1D, 0x1E, 0x1F, 0x28, 0x29, 0x2C,
        0x2D, 0x2E, 0x2F, 0x30, 0x31, 0x32, 0x33, 0x34, 0x35, 0x36, 0x37, 0x38, 0x39, 0x3A, 0x3B, 0x3C, 0x3D, 0x3E, 0x3F]) ∨
    ((fieldOp w).toNat = 0x01 ∧ (fieldRt w).toNat ∉ [0x00, 0x01, 0x10, 0x11])

/-! ## The invariant, and memory as the spec writes it -/

/-- Memory keeps its canonical form. -/
def StateInv (s : State) : Prop := s.mem.wf = true

/-- MEM_LE with its contents as spec/20_memory.md R33 has them, "a total function `B` from the 2^32 byte addresses to bytes". It is a term of
claims only: the machine runs on `memLE`, whose contents are plain data. -/
def memBytes : MemComponent (Word → Byte) where
  readWord B a := wordOfBytes (B a) (B (a + 1)) (B (a + 2)) (B (a + 3))
  writeWord B a v := fun b =>
    if b = a then byteOfWord v 0 else if b = a + 1 then byteOfWord v 1 else if b = a + 2 then byteOfWord v 2
    else if b = a + 3 then byteOfWord v 3 else B b
  shares := memLE.shares

/-- The byte at every address is `B`'s. -/
def Memory.Holds (m : Memory) (B : Word → Byte) : Prop := ∀ a, m.readByte a = B a

end Sys2Proof.Machine
end

