-- ==== Sys2Proof/Certificates/Slice0/Obligations.lean ====
section
/-! DEFINITION. The statements for the provers. Numbers in a docstring are rules of spec/ or entries of the assumption log; "log n" marks a
clause that rests on a decision the spec marks as its own or on a choice of this model. Two such clauses recur: an EncodedAs clause is the
Encoding line of the instruction's rule, whose numbers are the spec's decision D12 and whose ignored fields are its decision D13 (log 9,
log 11); and a clause that something stays as it was is the frame rule R21, the spec's decision D2 (log 14). -/

open Sys2Proof Sys2Proof.Machine

/-! ## Register-register instructions -/

/-- SLL, SRL and SRA (R96, R97, R98; `<<`, `>>u`, `>>s` as spec/00_scope.md section 7 defines them): encoding (log 9, log 11), result, frame
(log 14). The roles of rd and rt: log 10.
A shift amount of 32 or more, which no word encodes, is the model's own choice: log 19. -/
def Obligations.ShiftByConstantResults : Prop :=
  EncodedAs 0xFC00003F 0x00000000 (fun w => .sll (rdOf w) (rtOf w) (shamtOf w)) ∧
  EncodedAs 0xFC00003F 0x00000002 (fun w => .srl (rdOf w) (rtOf w) (shamtOf w)) ∧
  EncodedAs 0xFC00003F 0x00000003 (fun w => .sra (rdOf w) (rtOf w) (shamtOf w)) ∧
  ∀ (rd rt : RegIdx) (shamt : Nat) (s : State),
    Completes (.sll rd rt shamt) s (WritesReg s rd fun v => v.toNat = (s.reg rt).toNat * 2 ^ shamt % 2 ^ 32) ∧
    Completes (.srl rd rt shamt) s (WritesReg s rd fun v => v.toNat = (s.reg rt).toNat / 2 ^ shamt) ∧
    Completes (.sra rd rt shamt) s (WritesReg s rd fun v => v.toInt = (s.reg rt).toInt / (2 : Int) ^ shamt)

/-- SLLV, SRLV and SRAV: the amount is the low 5 bits of `x[rs]`, the spec's own choice (R99, D7; log 8). That `x[rt]` is shifted, by `x[rs]`,
into rd: log 10. Encoding: log 9, log 11; frame: log 14. -/
def Obligations.VariableShiftResults : Prop :=
  EncodedAs 0xFC00003F 0x00000004 (fun w => .sllv (rdOf w) (rtOf w) (rsOf w)) ∧
  EncodedAs 0xFC00003F 0x00000006 (fun w => .srlv (rdOf w) (rtOf w) (rsOf w)) ∧
  EncodedAs 0xFC00003F 0x00000007 (fun w => .srav (rdOf w) (rtOf w) (rsOf w)) ∧
  ∀ (rd rt rs : RegIdx) (s : State),
    Completes (.sllv rd rt rs) s
      (WritesReg s rd fun v => v.toNat = (s.reg rt).toNat * 2 ^ ((s.reg rs).toNat % 32) % 2 ^ 32) ∧
    Completes (.srlv rd rt rs) s (WritesReg s rd fun v => v.toNat = (s.reg rt).toNat / 2 ^ ((s.reg rs).toNat % 32)) ∧
    Completes (.srav rd rt rs) s
      (WritesReg s rd fun v => v.toInt = (s.reg rt).toInt / (2 : Int) ^ ((s.reg rs).toNat % 32))

/-- ADD, ADDU, SUB and SUBU (R103 to R106): modulo 2^32, never a trap. The order of the operands and the destination rd: log 10. Encoding:
log 9, log 11; frame: log 14. -/
def Obligations.AddSubtractResults : Prop :=
  EncodedAs 0xFC00003F 0x00000020 (fun w => .add (rdOf w) (rsOf w) (rtOf w)) ∧
  EncodedAs 0xFC00003F 0x00000021 (fun w => .addu (rdOf w) (rsOf w) (rtOf w)) ∧
  EncodedAs 0xFC00003F 0x00000022 (fun w => .sub (rdOf w) (rsOf w) (rtOf w)) ∧
  EncodedAs 0xFC00003F 0x00000023 (fun w => .subu (rdOf w) (rsOf w) (rtOf w)) ∧
  ∀ (rd rs rt : RegIdx) (s : State),
    let sum := fun v : Word => v.toNat = ((s.reg rs).toNat + (s.reg rt).toNat) % 2 ^ 32
    let difference := fun v : Word => (v.toNat : Int) = ((s.reg rs).toNat - (s.reg rt).toNat : Int) % 2 ^ 32
    Completes (.add rd rs rt) s (WritesReg s rd sum) ∧
    Completes (.addu rd rs rt) s (WritesReg s rd sum) ∧
    Completes (.sub rd rs rt) s (WritesReg s rd difference) ∧
    Completes (.subu rd rs rt) s (WritesReg s rd difference)

/-- AND, OR, XOR and NOR (R107 to R110), bit by bit. The roles of rd, rs and rt: log 10. Encoding: log 9, log 11; frame: log 14. -/
def Obligations.BitwiseLogicResults : Prop :=
  EncodedAs 0xFC00003F 0x00000024 (fun w => .and (rdOf w) (rsOf w) (rtOf w)) ∧
  EncodedAs 0xFC00003F 0x00000025 (fun w => .or (rdOf w) (rsOf w) (rtOf w)) ∧
  EncodedAs 0xFC00003F 0x00000026 (fun w => .xor (rdOf w) (rsOf w) (rtOf w)) ∧
  EncodedAs 0xFC00003F 0x00000027 (fun w => .nor (rdOf w) (rsOf w) (rtOf w)) ∧
  ∀ (rd rs rt : RegIdx) (s : State),
    let bits := fun (f : Bool → Bool → Bool) (v : Word) =>
      ∀ i, i < 32 → v.getLsbD i = f ((s.reg rs).getLsbD i) ((s.reg rt).getLsbD i)
    Completes (.and rd rs rt) s (WritesReg s rd (bits fun a b => a && b)) ∧
    Completes (.or rd rs rt) s (WritesReg s rd (bits fun a b => a || b)) ∧
    Completes (.xor rd rs rt) s (WritesReg s rd (bits fun a b => a != b)) ∧
    Completes (.nor rd rs rt) s (WritesReg s rd (bits fun a b => !(a || b)))

/-- SLT and SLTU (R111, R112): the value 1 or 0. That `x[rs]` is compared with `x[rt]`, into rd: log 10. Encoding: log 9, log 11; frame:
log 14. -/
def Obligations.SetOnLessThanResults : Prop :=
  EncodedAs 0xFC00003F 0x0000002A (fun w => .slt (rdOf w) (rsOf w) (rtOf w)) ∧
  EncodedAs 0xFC00003F 0x0000002B (fun w => .sltu (rdOf w) (rsOf w) (rtOf w)) ∧
  ∀ (rd rs rt : RegIdx) (s : State),
    Completes (.slt rd rs rt) s (WritesReg s rd fun v => v = if (s.reg rs).toInt < (s.reg rt).toInt then 1 else 0) ∧
    Completes (.sltu rd rs rt) s (WritesReg s rd fun v => v = if (s.reg rs).toNat < (s.reg rt).toNat then 1 else 0)

/-- MULT and MULTU (R113, R114): HI and LO together are the exact 64-bit product, signed and unsigned. The source fields rs and rt: log 10.
Encoding: log 9, log 11; frame: log 14. -/
def Obligations.MultiplyResults : Prop :=
  EncodedAs 0xFC00003F 0x00000018 (fun w => .mult (rsOf w) (rtOf w)) ∧
  EncodedAs 0xFC00003F 0x00000019 (fun w => .multu (rsOf w) (rtOf w)) ∧
  ∀ (rs rt : RegIdx) (s : State),
    Completes (.mult rs rt) s
      (WritesHiLo s fun hi lo => (hi ++ lo : BitVec 64).toInt = (s.reg rs).toInt * (s.reg rt).toInt) ∧
    Completes (.multu rs rt) s
      (WritesHiLo s fun hi lo => hi.toNat * 2 ^ 32 + lo.toNat = (s.reg rs).toNat * (s.reg rt).toNat)

/-- DIV (R115, R117, R118): truncation toward zero, the remainder with the dividend's sign, and the two corners, all of which the spec
marks as its own decisions D8 and D9 (log 6, log 7). That `x[rs]` is the dividend and `x[rt]` the divisor: log 10. Encoding: log 9, log 11;
frame: log 14. -/
def Obligations.SignedDivideResults : Prop :=
  EncodedAs 0xFC00003F 0x0000001A (fun w => .div (rsOf w) (rtOf w)) ∧
  ∀ (rs rt : RegIdx) (s : State),
    Completes (.div rs rt) s (WritesHiLo s fun hi lo =>
      if s.reg rt = 0 then hi = s.hi ∧ lo = s.lo
      else if (s.reg rs).toInt = -2 ^ 31 ∧ (s.reg rt).toInt = -1 then hi = 0x00000000 ∧ lo = 0x80000000
      else
        (s.reg rs).toInt = lo.toInt * (s.reg rt).toInt + hi.toInt ∧ |hi.toInt| < |(s.reg rt).toInt| ∧
          (hi.toInt = 0 ∨ (hi.toInt < 0 ↔ (s.reg rs).toInt < 0)))

/-- DIVU (R116), and its corner, which the spec marks as its own decision D8 (R117; log 6). That `x[rs]` is the dividend and `x[rt]` the divisor:
log 10. Encoding: log 9, log 11; frame: log 14. -/
def Obligations.UnsignedDivideResults : Prop :=
  EncodedAs 0xFC00003F 0x0000001B (fun w => .divu (rsOf w) (rtOf w)) ∧
  ∀ (rs rt : RegIdx) (s : State),
    Completes (.divu rs rt) s (WritesHiLo s fun hi lo =>
      if s.reg rt = 0 then hi = s.hi ∧ lo = s.lo
      else (s.reg rs).toNat = lo.toNat * (s.reg rt).toNat + hi.toNat ∧ hi.toNat < (s.reg rt).toNat)

/-- The policies of division by zero and of overflow (U1 and U5 of spec/93_implementation_defined.md) matter in those cases alone, and there
they reach HI and LO alone: "PC + 4 and all other state are defined in every case".
The policies: log 6, log 7 (D8, D9). That the rest of the state is as it was: log 14 (D2). That `x[rt]` is the divisor: log 10 (D17). -/
def Obligations.DivisionPolicyReachesCornersOnly : Prop :=
  ∀ (P : DivPolicy) (rs rt : RegIdx) (s : State),
    (s.reg rt ≠ 0 → execDivuWith P rs rt s = exec (.divu rs rt) s) ∧
    (s.reg rt ≠ 0 → ¬((s.reg rs).toInt = -2 ^ 31 ∧ (s.reg rt).toInt = -1) → execDivWith P rs rt s = exec (.div rs rt) s) ∧
    (∃ t, execDivuWith P rs rt s = .next t ∧ WritesHiLo s (fun _ _ => True) t) ∧
    (∃ t, execDivWith P rs rt s = .next t ∧ WritesHiLo s (fun _ _ => True) t)

/-- MFHI, MFLO, MTHI and MTLO (R119 to R122). That the first two write rd and the last two read rs: log 10. Encoding: log 9, log 11; frame:
log 14. -/
def Obligations.HiLoMoveResults : Prop :=
  EncodedAs 0xFC00003F 0x00000010 (fun w => .mfhi (rdOf w)) ∧
  EncodedAs 0xFC00003F 0x00000012 (fun w => .mflo (rdOf w)) ∧
  EncodedAs 0xFC00003F 0x00000011 (fun w => .mthi (rsOf w)) ∧
  EncodedAs 0xFC00003F 0x00000013 (fun w => .mtlo (rsOf w)) ∧
  ∀ (r : RegIdx) (s : State),
    Completes (.mfhi r) s (WritesReg s r fun v => v = s.hi) ∧
    Completes (.mflo r) s (WritesReg s r fun v => v = s.lo) ∧
    Completes (.mthi r) s (WritesHiLo s fun hi lo => hi = s.reg r ∧ lo = s.lo) ∧
    Completes (.mtlo r) s (WritesHiLo s fun hi lo => hi = s.hi ∧ lo = s.reg r)

/-- The four laws of R123: ADD(r, 0) and ADDU(r, 0) are r, ADD is ADDU and SUB is SUBU; SLT(a, a) and SLTU(a, a) are 0; SLT and SLTU differ
exactly when the operands' sign bits differ, zero included, as 90_conflicts.md C6 settles it; and the round trip of MULT and MULTU, whose HI
and LO joined are the signed and the unsigned product. Which fields are the operands and the destination: log 10. -/
def Obligations.ArithmeticLaws : Prop :=
  ∀ (rd rs rt : RegIdx) (s : State),
    (s.reg rt = 0 → Completes (.add rd rs rt) s fun t => t.reg rd = s.reg rs) ∧
    (s.reg rt = 0 → Completes (.addu rd rs rt) s fun t => t.reg rd = s.reg rs) ∧
    exec (.add rd rs rt) s = exec (.addu rd rs rt) s ∧
    exec (.sub rd rs rt) s = exec (.subu rd rs rt) s ∧
    (Completes (.slt rd rs rs) s fun t => t.reg rd = 0) ∧
    (Completes (.sltu rd rs rs) s fun t => t.reg rd = 0) ∧
    (Completes (.slt rd rs rt) s fun t => Completes (.sltu rd rs rt) s fun u =>
      (t.reg rd ≠ u.reg rd ↔ (s.reg rs).msb ≠ (s.reg rt).msb)) ∧
    (Completes (.mult rs rt) s fun t => (t.hi ++ t.lo : BitVec 64).toInt = (s.reg rs).toInt * (s.reg rt).toInt) ∧
    (Completes (.multu rs rt) s fun t => t.hi.toNat * 2 ^ 32 + t.lo.toNat = (s.reg rs).toNat * (s.reg rt).toNat)

/-- MFLO and MFHI right after MULT see its product (R211). The register fields: log 10 (D17). -/
def Obligations.ProductReadableAtOnce : Prop :=
  ∀ (rs rt rd : RegIdx) (s : State),
    Completes (.mult rs rt) s fun t =>
      (Completes (.mflo rd) t fun u => u.reg rd = s.reg rs * s.reg rt) ∧
      (Completes (.mfhi rd) t fun u => (u.reg rd).toInt = (s.reg rs).toInt * (s.reg rt).toInt / 2 ^ 32)

/-! ## Register-immediate instructions -/

/-- ADDI and ADDIU (R131, R132): the immediate is sign-extended for both, and neither traps. Encoding: log 9,
log 11; frame: log 14. -/
def Obligations.AddImmediateResults : Prop :=
  EncodedAs 0xFC000000 0x20000000 (fun w => .addi (rtOf w) (rsOf w) (fieldImm w)) ∧
  EncodedAs 0xFC000000 0x24000000 (fun w => .addiu (rtOf w) (rsOf w) (fieldImm w)) ∧
  ∀ (rt rs : RegIdx) (imm : Half) (s : State),
    let sum := fun v : Word => (v.toNat : Int) = ((s.reg rs).toNat + imm.toInt : Int) % 2 ^ 32
    Completes (.addi rt rs imm) s (WritesReg s rt sum) ∧
    Completes (.addiu rt rs imm) s (WritesReg s rt sum)

/-- SLTI and SLTIU (R133, R134): the immediate is sign-extended, then compared as signed or as unsigned. Encoding:
log 9, log 11; frame: log 14. -/
def Obligations.SetOnLessThanImmediateResults : Prop :=
  EncodedAs 0xFC000000 0x28000000 (fun w => .slti (rtOf w) (rsOf w) (fieldImm w)) ∧
  EncodedAs 0xFC000000 0x2C000000 (fun w => .sltiu (rtOf w) (rsOf w) (fieldImm w)) ∧
  ∀ (rt rs : RegIdx) (imm : Half) (s : State),
    Completes (.slti rt rs imm) s (WritesReg s rt fun v => v = if (s.reg rs).toInt < imm.toInt then 1 else 0) ∧
    Completes (.sltiu rt rs imm) s (WritesReg s rt fun v =>
      v = if (s.reg rs).toNat < (if imm.toNat < 0x8000 then imm.toNat else 0xFFFF0000 + imm.toNat) then 1 else 0)

/-- ANDI, ORI and XORI (R135 to R137): bits 31 to 16 of the operand are copies of bit 15 of the immediate. Encoding:
log 9, log 11; frame: log 14. -/
def Obligations.LogicalImmediateResults : Prop :=
  EncodedAs 0xFC000000 0x30000000 (fun w => .andi (rtOf w) (rsOf w) (fieldImm w)) ∧
  EncodedAs 0xFC000000 0x34000000 (fun w => .ori (rtOf w) (rsOf w) (fieldImm w)) ∧
  EncodedAs 0xFC000000 0x38000000 (fun w => .xori (rtOf w) (rsOf w) (fieldImm w)) ∧
  ∀ (rt rs : RegIdx) (imm : Half) (s : State),
    let bits := fun (f : Bool → Bool → Bool) (v : Word) =>
      ∀ i, i < 32 → v.getLsbD i = f ((s.reg rs).getLsbD i) (if i < 16 then imm.getLsbD i else imm.getLsbD 15)
    Completes (.andi rt rs imm) s (WritesReg s rt (bits fun a b => a && b)) ∧
    Completes (.ori rt rs imm) s (WritesReg s rt (bits fun a b => a || b)) ∧
    Completes (.xori rt rs imm) s (WritesReg s rt (bits fun a b => a != b))

/-- LUI (R138). Encoding: log 9, log 11; frame: log 14. -/
def Obligations.LoadUpperImmediateResult : Prop :=
  EncodedAs 0xFC000000 0x3C000000 (fun w => .lui (rtOf w) (fieldImm w)) ∧
  ∀ (rt : RegIdx) (imm : Half) (s : State),
    Completes (.lui rt imm) s (WritesReg s rt fun v => v.toNat = imm.toNat * 2 ^ 16)

/-- R139: an immediate instruction is its register-register counterpart whose second register holds `sext_16(imm)`.
The roles of the register forms' fields: log 10 (D17). That the two end in the same state rests on the frame rule too: log 14 (D2). -/
def Obligations.ImmediateMatchesRegisterForm : Prop :=
  ∀ (rt rs rx : RegIdx) (imm : Half) (s : State), s.reg rx = BitVec.signExtend 32 imm →
    exec (.addi rt rs imm) s = exec (.add rt rs rx) s ∧
    exec (.addiu rt rs imm) s = exec (.add rt rs rx) s ∧
    exec (.slti rt rs imm) s = exec (.slt rt rs rx) s ∧
    exec (.sltiu rt rs imm) s = exec (.sltu rt rs rx) s ∧
    exec (.andi rt rs imm) s = exec (.and rt rs rx) s ∧
    exec (.ori rt rs imm) s = exec (.or rt rs rx) s ∧
    exec (.xori rt rs imm) s = exec (.xor rt rs rx) s ∧
    (Completes (.addi rt rs 0) s fun t => t.reg rt = s.reg rs) ∧
    (Completes (.addiu rt rs 0) s fun t => t.reg rt = s.reg rs)

/-- R69's two expansions of `li` (pseudo-instructions are the spec's decision D18; log 24): LUI and ORI give a 32-bit constant exactly when its bit 15 is 0, or its upper half is already the 0xFFFF that
ORI's sign extension leaves there; LUI of `(c + 0x8000)[31:16]` and ADDIU give every constant. -/
def Obligations.LoadConstantIdioms : Prop :=
  ∀ (rt : RegIdx) (c : Word) (s : State),
    (Completes (.lui rt (c.extractLsb' 16 16)) s fun t =>
      Completes (.ori rt rt (c.extractLsb' 0 16)) t fun u => (u.reg rt = c ↔ (c.getLsbD 15 = false ∨ c.extractLsb' 16 16 = 0xFFFF#16))) ∧
    (Completes (.lui rt ((c + 0x8000).extractLsb' 16 16)) s fun t =>
      Completes (.addiu rt rt (c.extractLsb' 0 16)) t fun u => u.reg rt = c)

/-! ## Jumps and branches -/

/-- J and JAL (R147, R148): bits 31:28 are those of the instruction's own address, and the link is PC + 4. Encoding: log 9,
log 11; frame: log 14. -/
def Obligations.JumpResults : Prop :=
  EncodedAs 0xFC000000 0x08000000 (fun w => .j (fieldTgt26 w)) ∧
  EncodedAs 0xFC000000 0x0C000000 (fun w => .jal (fieldTgt26 w)) ∧
  ∀ (tgt26 : BitVec 26) (s : State),
    Completes (.j tgt26) s (SetsPc s (BitVec.ofNat 32 (s.pc.toNat / 2 ^ 28 * 2 ^ 28 + tgt26.toNat * 4))) ∧
    Completes (.jal tgt26) s (SetsPcAndLinks s 31 (BitVec.ofNat 32 (s.pc.toNat / 2 ^ 28 * 2 ^ 28 + tgt26.toNat * 4)))

/-- JR and JALR (R149, R150): the destination is the old register, all 32 bits, also where `rd = rs`; and R149's round trip: JAL from P
leaves P + 4 in register 31, and a JR $31 that finds it there goes to P + 4. Encoding: log 9, log 11; frame: log 14. -/
def Obligations.JumpRegisterResults : Prop :=
  EncodedAs 0xFC00003F 0x00000008 (fun w => .jr (rsOf w)) ∧
  EncodedAs 0xFC00003F 0x00000009 (fun w => .jalr (rdOf w) (rsOf w)) ∧
  (∀ (rd rs : RegIdx) (s : State),
    Completes (.jr rs) s (SetsPc s (s.reg rs)) ∧
    Completes (.jalr rd rs) s (SetsPcAndLinks s rd (s.reg rs))) ∧
  ∀ (tgt26 : BitVec 26) (s : State),
    Completes (.jal tgt26) s fun t => t.reg 31 = s.pc + 4 ∧
      ∀ u : State, u.reg 31 = t.reg 31 → Completes (.jr 31) u fun v => v.pc = s.pc + 4

/-- BEQ and BNE (R146, R151, R152). Encoding: log 9, log 11; frame: log 14. -/
def Obligations.EqualityBranchResults : Prop :=
  EncodedAs 0xFC000000 0x10000000 (fun w => .beq (rsOf w) (rtOf w) (fieldImm w)) ∧
  EncodedAs 0xFC000000 0x14000000 (fun w => .bne (rsOf w) (rtOf w) (fieldImm w)) ∧
  ∀ (rs rt : RegIdx) (imm : Half) (s : State),
    Completes (.beq rs rt imm) s (SetsPc s (if s.reg rs = s.reg rt then branchTarget s.pc imm else s.pc + 4)) ∧
    Completes (.bne rs rt imm) s (SetsPc s (if s.reg rs ≠ s.reg rt then branchTarget s.pc imm else s.pc + 4))

/-- BLEZ and BGTZ (R153, R154): the comparison is with the constant zero. Encoding: log 9, log 11; frame: log 14. -/
def Obligations.ZeroCompareBranchResults : Prop :=
  EncodedAs 0xFC000000 0x18000000 (fun w => .blez (rsOf w) (fieldImm w)) ∧
  EncodedAs 0xFC000000 0x1C000000 (fun w => .bgtz (rsOf w) (fieldImm w)) ∧
  ∀ (rs : RegIdx) (imm : Half) (s : State),
    Completes (.blez rs imm) s (SetsPc s (if (s.reg rs).msb = true ∨ s.reg rs = 0 then branchTarget s.pc imm else s.pc + 4)) ∧
    Completes (.bgtz rs imm) s (SetsPc s (if (s.reg rs).msb = false ∧ s.reg rs ≠ 0 then branchTarget s.pc imm else s.pc + 4))

/-- BLTZ and BGEZ (R155, R156). Encoding: log 9, and log 12 for the width of the selector; frame: log 14. -/
def Obligations.SignBranchResults : Prop :=
  EncodedAs 0xFC1F0000 0x04000000 (fun w => .bltz (rsOf w) (fieldImm w)) ∧
  EncodedAs 0xFC1F0000 0x04010000 (fun w => .bgez (rsOf w) (fieldImm w)) ∧
  ∀ (rs : RegIdx) (imm : Half) (s : State),
    Completes (.bltz rs imm) s (SetsPc s (if (s.reg rs).msb = true then branchTarget s.pc imm else s.pc + 4)) ∧
    Completes (.bgez rs imm) s (SetsPc s (if (s.reg rs).msb = false then branchTarget s.pc imm else s.pc + 4))

/-- BLTZAL and BGEZAL (R157, R158): the link is written taken or not, and with `rs` = 31 the condition reads the old register.
Encoding: log 9, and log 12 for the width of the selector; frame: log 14. -/
def Obligations.LinkingSignBranchResults : Prop :=
  EncodedAs 0xFC1F0000 0x04100000 (fun w => .bltzal (rsOf w) (fieldImm w)) ∧
  EncodedAs 0xFC1F0000 0x04110000 (fun w => .bgezal (rsOf w) (fieldImm w)) ∧
  ∀ (rs : RegIdx) (imm : Half) (s : State),
    Completes (.bltzal rs imm) s
      (SetsPcAndLinks s 31 (if (s.reg rs).msb = true then branchTarget s.pc imm else s.pc + 4)) ∧
    Completes (.bgezal rs imm) s
      (SetsPcAndLinks s 31 (if (s.reg rs).msb = false then branchTarget s.pc imm else s.pc + 4))

/-- R83: an instruction that is no control transfer, or a branch whose condition fails, ends with the default PC, and so does every unassigned
word. -/
def Obligations.DefaultPcUnlessTransfer : Prop :=
  (∀ (i : Instr) (s t : State), exec i s = .next t → ¬ i.transfers s → t.pc = s.pc + 4) ∧
  ∀ (u : Unassigned) (s : State), ∃ t, execUnassigned u s = .next t ∧ t.pc = s.pc + 4

/-- R159: J and JAL land on a multiple of 4, a branch and every other instruction but JR and JALR keep bits 1:0 of the PC, and so keep an
aligned PC aligned. A PC that is not aligned is allowed: log 20 (D22). An ill-formed shift: log 19. -/
def Obligations.PcAlignment : Prop :=
  ∀ (i : Instr) (s t : State), exec i s = .next t →
    ((∃ tgt26, i = .j tgt26 ∨ i = .jal tgt26) → t.pc.toNat % 4 = 0) ∧
    ((∀ tgt26, i ≠ .j tgt26 ∧ i ≠ .jal tgt26) → (∀ rd rs, i ≠ .jr rs ∧ i ≠ .jalr rd rs) →
      t.pc.toNat % 4 = s.pc.toNat % 4)

/-- The field assembly of R68 (the spec's decision D18; log 24): the fields it gives for a label that can be reached take a jump and a taken branch to the label. -/
def Obligations.LabelFieldsReachLabel : Prop :=
  ∀ (pc label : Word) (s : State), s.pc = pc →
    (jumpReaches pc label = true → Completes (.j (jumpField label)) s fun t => t.pc = label) ∧
    (branchReaches pc label = true → ∀ r, Completes (.beq r r (branchField pc label)) s fun t => t.pc = label)

/-! ## Loads and stores -/

/-- LB, LH, LW, LBU and LHU (R166 to R170), over the primitive `read_word` at `x[rs] + sext_16(imm)`. Encoding: log 9,
log 11; frame: log 14. -/
def Obligations.LoadResults : Prop :=
  EncodedAs 0xFC000000 0x80000000 (fun w => .lb (rtOf w) (fieldImm w) (rsOf w)) ∧
  EncodedAs 0xFC000000 0x84000000 (fun w => .lh (rtOf w) (fieldImm w) (rsOf w)) ∧
  EncodedAs 0xFC000000 0x8C000000 (fun w => .lw (rtOf w) (fieldImm w) (rsOf w)) ∧
  EncodedAs 0xFC000000 0x90000000 (fun w => .lbu (rtOf w) (fieldImm w) (rsOf w)) ∧
  EncodedAs 0xFC000000 0x94000000 (fun w => .lhu (rtOf w) (fieldImm w) (rsOf w)) ∧
  ∀ (rt : RegIdx) (imm : Half) (rs : RegIdx) (s : State),
    let word := MEM.readWord s.mem (s.reg rs + BitVec.ofInt 32 imm.toInt)
    Completes (.lb rt imm rs) s (WritesReg s rt fun v => v.toInt = (BitVec.ofNat 8 word.toNat).toInt) ∧
    Completes (.lh rt imm rs) s (WritesReg s rt fun v => v.toInt = (BitVec.ofNat 16 word.toNat).toInt) ∧
    Completes (.lw rt imm rs) s (WritesReg s rt fun v => v = word) ∧
    Completes (.lbu rt imm rs) s (WritesReg s rt fun v => v.toNat = word.toNat % 2 ^ 8) ∧
    Completes (.lhu rt imm rs) s (WritesReg s rt fun v => v.toNat = word.toNat % 2 ^ 16)

/-- Under the reference memory (R33, the spec's choice D4 and D5; log 1, log 25) a load reads the bytes at its address, the lowest least
significant, aligned or not, wrapping at the top. -/
def Obligations.LoadsReadBytesLittleEndian : Prop :=
  ∀ (rt : RegIdx) (imm : Half) (rs : RegIdx) (s : State),
    let a := effAddr s rs imm
    let b := fun k : Word => (s.byteAt (a + k)).toNat
    Completes (.lb rt imm rs) s (fun t => (t.reg rt).toInt = (s.byteAt a).toInt) ∧
    Completes (.lbu rt imm rs) s (fun t => (t.reg rt).toNat = b 0) ∧
    Completes (.lh rt imm rs) s (fun t => (t.reg rt).toInt = ((s.byteAt a).toNat + 2 ^ 8 * (s.byteAt (a + 1)).toInt : Int)) ∧
    Completes (.lhu rt imm rs) s (fun t => (t.reg rt).toNat = b 0 + 2 ^ 8 * b 1) ∧
    Completes (.lw rt imm rs) s (fun t => (t.reg rt).toNat = b 0 + 2 ^ 8 * b 1 + 2 ^ 16 * b 2 + 2 ^ 24 * b 3)

/-- SB, SH and SW (R171 to R173): one `write_word` at the effective address, of the word whose low 8, 16 or 32 bits are those of `x[rt]` and
whose other bits are those `read_word` gives there. Encoding: log 9, log 11; frame: log 14. -/
def Obligations.StoreResults : Prop :=
  EncodedAs 0xFC000000 0xA0000000 (fun w => .sb (rtOf w) (fieldImm w) (rsOf w)) ∧
  EncodedAs 0xFC000000 0xA4000000 (fun w => .sh (rtOf w) (fieldImm w) (rsOf w)) ∧
  EncodedAs 0xFC000000 0xAC000000 (fun w => .sw (rtOf w) (fieldImm w) (rsOf w)) ∧
  ∀ (rt : RegIdx) (imm : Half) (rs : RegIdx) (s : State),
    let a := s.reg rs + BitVec.ofInt 32 imm.toInt
    let old := MEM.readWord s.mem a
    let merged := fun n : Nat => BitVec.ofNat 32 (old.toNat / 2 ^ n * 2 ^ n + (s.reg rt).toNat % 2 ^ n)
    Completes (.sb rt imm rs) s (WritesMemory s (MEM.writeWord s.mem a (merged 8))) ∧
    Completes (.sh rt imm rs) s (WritesMemory s (MEM.writeWord s.mem a (merged 16))) ∧
    Completes (.sw rt imm rs) s (WritesMemory s (MEM.writeWord s.mem a (s.reg rt)))

/-- Under the reference memory (R33; log 1, log 25) SB, SH and SW change the one, two or four bytes from the effective address, and every other
byte of memory reads as before. -/
def Obligations.StoresChangeExactlyTheirBytes : Prop :=
  ∀ (rt : RegIdx) (imm : Half) (rs : RegIdx) (s : State) (a : Word), effAddr s rs imm = a →
    (Completes (.sb rt imm rs) s fun t =>
      (t.byteAt a).toNat = (s.reg rt).toNat % 2 ^ 8 ∧ ∀ b, b ≠ a → t.byteAt b = s.byteAt b) ∧
    (Completes (.sh rt imm rs) s fun t =>
      (t.byteAt a).toNat + 2 ^ 8 * (t.byteAt (a + 1)).toNat = (s.reg rt).toNat % 2 ^ 16 ∧
        ∀ b, b ≠ a → b ≠ a + 1 → t.byteAt b = s.byteAt b) ∧
    (Completes (.sw rt imm rs) s fun t =>
      (t.byteAt a).toNat + 2 ^ 8 * (t.byteAt (a + 1)).toNat + 2 ^ 16 * (t.byteAt (a + 2)).toNat +
          2 ^ 24 * (t.byteAt (a + 3)).toNat = (s.reg rt).toNat ∧
        ∀ b, b ≠ a → b ≠ a + 1 → b ≠ a + 2 → b ≠ a + 3 → t.byteAt b = s.byteAt b)

/-- The store-then-load table of R174, for any memory component that keeps R32's contract (D4, log 1): at the adapter, and as instruction
sequences of the core over that component, a store of `v` and then a load at the same address, each row with the value it loads.
That no register changes between the two is the frame rule R21 (D2, log 14). -/
def Obligations.StoreThenLoadTable : Prop :=
  ∀ (μ : Type) (M : MemComponent μ), M.Contract →
    (∀ (m : μ) (a v : Word),
      let byte := v.extractLsb' 0 8
      let half := v.extractLsb' 0 16
      M.memRead4 (M.memWrite4 m a v) a = v ∧
      M.memRead2 (M.memWrite4 m a v) a = half ∧
      M.memRead1 (M.memWrite4 m a v) a = byte ∧
      M.memRead1 (M.memWrite1 m a byte) a = byte ∧
      M.memRead4 (M.memWrite1 m a byte) a = (M.readWord m a &&& 0xFFFFFF00) ||| (v &&& 0xFF) ∧
      M.memRead2 (M.memWrite2 m a half) a = half ∧
      M.memRead4 (M.memWrite2 m a half) a = (M.readWord m a &&& 0xFFFF0000) ||| (v &&& 0xFFFF)) ∧
    ∀ (s : State μ) (rt rs rd rb : RegIdx) (imm disp : Half), effAddr s rb disp = effAddr s rs imm →
      let v := s.reg rt
      let w := M.readWord s.mem (effAddr s rs imm)
      let loaded := fun (store load : Instr) (P : Word → Prop) =>
        CompletesOn M store s fun t => CompletesOn M load t fun u => P (u.reg rd)
      loaded (.sw rt imm rs) (.lw rd disp rb) (fun x => x = v) ∧
      loaded (.sw rt imm rs) (.lhu rd disp rb) (fun x => x = v &&& 0xFFFF) ∧
      loaded (.sw rt imm rs) (.lh rd disp rb) (fun x => x.toInt = (v.extractLsb' 0 16).toInt) ∧
      loaded (.sw rt imm rs) (.lbu rd disp rb) (fun x => x = v &&& 0xFF) ∧
      loaded (.sw rt imm rs) (.lb rd disp rb) (fun x => x.toInt = (v.extractLsb' 0 8).toInt) ∧
      loaded (.sb rt imm rs) (.lbu rd disp rb) (fun x => x = v &&& 0xFF) ∧
      loaded (.sb rt imm rs) (.lw rd disp rb) (fun x => x = (w &&& 0xFFFFFF00) ||| (v &&& 0xFF)) ∧
      loaded (.sh rt imm rs) (.lhu rd disp rb) (fun x => x = v &&& 0xFFFF) ∧
      loaded (.sh rt imm rs) (.lw rd disp rb) (fun x => x = (w &&& 0xFFFF0000) ||| (v &&& 0xFFFF))

/-- The adapter (R36 to R41), bit by bit, over any memory component: the low bits of the one word at the unmodified address. -/
def Obligations.AdapterUsesLowBits : Prop :=
  ∀ (μ : Type) (M : MemComponent μ) (m : μ) (a : Word),
    (∀ i, i < 8 → (M.memRead1 m a).getLsbD i = (M.readWord m a).getLsbD i) ∧
    (∀ i, i < 16 → (M.memRead2 m a).getLsbD i = (M.readWord m a).getLsbD i) ∧
    M.memRead4 m a = M.readWord m a ∧
    (∀ v : Byte, ∃ w, M.memWrite1 m a v = M.writeWord m a w ∧
      ∀ i, i < 32 → w.getLsbD i = if i < 8 then v.getLsbD i else (M.readWord m a).getLsbD i) ∧
    (∀ v : Half, ∃ w, M.memWrite2 m a v = M.writeWord m a w ∧
      ∀ i, i < 32 → w.getLsbD i = if i < 16 then v.getLsbD i else (M.readWord m a).getLsbD i) ∧
    ∀ v : Word, M.memWrite4 m a v = M.writeWord m a v

/-- MEM_LE (log 1; the sharing relation: log 22) meets R32's contract, and so does MEM_ALIGNED ("a second instance that also satisfies rule R32"); sharing storage in MEM_LE is
having a byte in common. -/
def Obligations.ReferenceMemoriesMeetContract : Prop :=
  memLE.Contract ∧ memAligned.Contract ∧
    ∀ a b : Word, memLE.shares a b = true ↔ ∃ i j : Fin 4, a + BitVec.ofNat 32 i.val = b + BitVec.ofNat 32 j.val

/-- Under MEM_LE (log 1, log 25), on memory in its canonical form (log 2), the adapter is byte-addressed memory, as data and not only as read (the paragraph
after R42). -/
def Obligations.AdapterIsByteMemory : Prop :=
  ∀ (m : Memory) (a : Word), m.wf = true →
    memLE.memRead1 m a = m.readByte a ∧
    memLE.memRead2 m a = m.readByte (a + 1) ++ m.readByte a ∧
    (∀ v : Byte, memLE.memWrite1 m a v = m.writeByte a v) ∧
    ∀ v : Half, memLE.memWrite2 m a v = (Memory.writeByte (m.writeByte a (v.extractLsb' 0 8)) (a + 1) (v.extractLsb' 8 8))

/-- The canonical form is canonical: two memories in it that read alike at every address are the same list (log 2). -/
def Obligations.CanonicalMemoriesWithEqualBytesAreEqual : Prop :=
  ∀ m m' : Memory, m.wf = true → m'.wf = true → (∀ a, m.readByte a = m'.readByte a) → m = m'

/-- The mixed-width accesses of R34 under MEM_LE (log 1; the byte order, the spec's decision D5: log 25), for any word at any address. -/
def Obligations.MixedWidthAccesses : Prop :=
  ∀ (m : Memory) (a v : Word) (b : Byte),
    let m4 := memLE.memWrite4 m a v
    memLE.memRead1 m4 a = v.extractLsb' 0 8 ∧ memLE.memRead1 m4 (a + 1) = v.extractLsb' 8 8 ∧
    memLE.memRead1 m4 (a + 2) = v.extractLsb' 16 8 ∧ memLE.memRead1 m4 (a + 3) = v.extractLsb' 24 8 ∧
    memLE.memRead2 m4 a = v.extractLsb' 0 16 ∧ memLE.memRead2 m4 (a + 2) = v.extractLsb' 16 16 ∧
    memLE.memRead4 (memLE.memWrite1 m4 (a + 1) b) a = v.extractLsb' 16 16 ++ b ++ v.extractLsb' 0 8

/-- R53, R213 (the spec's decision D16; log 15): a word stored where the program goes next is the word the next fetch reads.
The fetch in the step: D3, log 15. -/
def Obligations.StoreIsSeenByTheNextFetch : Prop :=
  ∀ (s t : State) (rt : RegIdx) (imm : Half) (rs : RegIdx), s.run = true → decode s.fetchWord = .instr (.sw rt imm rs) →
    effAddr s rs imm = s.pc + 4 → step s = .next t →
      t.fetchWord = s.reg rt ∧ ∀ i, decode (s.reg rt) = .instr i → step t = exec i t

/-! ## SYSCALL and the unassigned words -/

/-- SYSCALL (R180): it clears RUN when register 2 holds 10, in all 32 bits (the spec's decision D21; log 21), and nothing else changes but the
PC, which advances in both cases. Encoding: log 9, log 11; frame: log 14. -/
def Obligations.SyscallResult : Prop :=
  EncodedAs 0xFC00003F 0x0000000C (fun _ => .syscall) ∧
  ∀ s : State, Completes .syscall s fun t =>
    (t.run = if (s.reg 2).toNat = 10 then false else s.run) ∧ SameRegs s t ∧ SameHiLo s t ∧ SameMemory s t ∧ t.pc = s.pc + 4

/-- R89: every word of the lists of unassigned encodings is a no-op: a cycle answers the state with the PC advanced by 4 and not one thing
else changed. The lists rest on the spec's decisions D12 and D14 (log 9, log 12), the fetch inside the step on its decision D3 (log 15). -/
def Obligations.UnassignedWordsAreNoOps : Prop :=
  ∀ s : State, s.run = true → UnassignedWord s.fetchWord →
    ∃ t, step s = .next t ∧ SetsPc s (s.pc + 4) t ∧ t.mem = s.mem

/-- The opcode map (R62 to R64, whose numbers the spec marks as its decision D12; log 9) is a partition of all 2^32 words: a word of the
lists of unassigned encodings is no instruction, and any other has the fixed bits of exactly one row of the opcode table, the row of the
instruction it decodes to. The width of the selector: D14, log 12. -/
def Obligations.OpcodeMapPartitionsWords : Prop :=
  ∀ w : Word,
    (UnassignedWord w → (∃ u, decode w = .unassigned u) ∧ ∀ i : Instr, w &&& i.rowMask ≠ i.rowMatch) ∧
    (¬ UnassignedWord w → ∃ i, decode w = .instr i ∧ w &&& i.rowMask = i.rowMatch ∧
      ∀ i' : Instr, w &&& i'.rowMask = i'.rowMatch → i'.rowMatch = i.rowMatch ∧ i'.rowMask = i.rowMask)

/-! ## Decode and encode -/

/-- Decoding the encoding of a well-formed instruction gives it back, from the word and from its bytes (numbers: D12, log 9; the encoder's zeros in
ignored fields: log 11; byte order: log 25). -/
def Obligations.DecodeOfEncode : Prop :=
  ∀ i : Instr, i.wf = true → decode (encode i) = .instr i ∧
    ∀ rest, decodeBytes (bytesOfWord (encode i) ++ rest) = .word (.instr i) rest

/-- A word decodes to an instruction exactly when the instruction is well-formed and the word has its encoding in the bits that are not
ignored (R65, the spec's decision D13; log 11). -/
def Obligations.DecodeIffCareBitsMatch : Prop :=
  ∀ (w : Word) (i : Instr), decode w = .instr i ↔ (i.wf = true ∧ w &&& i.careMask = encode i)

/-- A word of each format and group, written out from R56 and R62 to R64 (numbers: D12, log 9), decodes to its instruction. The SYSCALL
word has ones in bits 25:6, which the decoder ignores by the spec's decisions D13 and D21 (log 11, log 21). -/
def Obligations.SampleWordsDecode : Prop :=
  decode 0b001000_00000_01000_0000000000000101 = .instr (.addi 8 0 5) ∧
  decode 0b000000_01001_01010_01000_00000_100000 = .instr (.add 8 9 10) ∧
  decode 0b000000_00000_01001_01000_00100_000000 = .instr (.sll 8 9 4) ∧
  decode 0b000001_01001_10001_0000000000000010 = .instr (.bgezal 9 2) ∧
  decode 0b000011_00000100000000000000000100 = .instr (.jal 0x0100004) ∧
  decode 0b101000_01001_01000_1111111111111100 = .instr (.sb 8 0xFFFC 9) ∧
  decode 0b000000_11111_11111_11111_11111_001100 = .instr .syscall ∧
  decode 0b000000_00000_00000_00000_00000_001101 = .unassigned (.funct 0x0D)

/-- The derived operands (R58 to R61): `extended_imm`, `offset`, `address`, `target`. -/
def Obligations.DerivedOperandValues : Prop :=
  ∀ (imm : Half) (tgt26 : BitVec 26) (rs : RegIdx) (s : State),
    (extendedImm imm).toInt = imm.toInt ∧
    (branchOffset imm).toInt = 4 * imm.toInt ∧
    ((effAddr s rs imm).toNat : Int) = ((s.reg rs).toNat + imm.toInt : Int) % 2 ^ 32 ∧
    (jumpTarget tgt26).toNat = 4 * tgt26.toNat

/-! ## The step, the run and the whole machine -/

/-- A step in a state with RUN = 1 runs the instruction that the word at the PC decodes to, with nothing around it, and gives an unassigned word
the default next state; with RUN = 0 there is no step (R80, R81, R92: the spec's decisions D3 and D11; log 5, log 15).
The clause on the four bytes at the PC rests on the reference memory and its byte order (D4, D5; log 1, log 25). -/
def Obligations.StepRunsTheDecodedInstruction : Prop :=
  ∀ s : State,
    (s.run = true → ∀ i, decode (MEM.readWord s.mem s.pc) = .instr i → step s = exec i s) ∧
    (s.run = true → ∀ i, decodeBytes [s.byteAt s.pc, s.byteAt (s.pc + 1), s.byteAt (s.pc + 2), s.byteAt (s.pc + 3)] =
      .word (.instr i) [] → step s = exec i s) ∧
    (s.run = true → ∀ u, decode (MEM.readWord s.mem s.pc) = .unassigned u → step s = .next { s with pc := s.pc + 4 }) ∧
    (s.run = false → step s = .refused .halted)

/-- R93, R185: every cycle has an outcome and it is a next state; every instruction completes from every state; a step stops only where
RUN = 0.
The stop at RUN = 0: D11, log 5. No fault and no exception: log 16. An ill-formed shift, which no word encodes, completes too: log 19. -/
def Obligations.EveryCycleCompletes : Prop :=
  (∀ (i : Instr) (s : State), ∃ t, exec i s = .next t) ∧
  (∀ s : State, ∃ t, cycle s = .next t) ∧
  ∀ s : State, (∃ t, step s = .next t) ↔ s.run = true

/-- R19: RUN is set at the start; only SYSCALL writes it, only to clear it, and only where register 2 holds 10; no step sets it; and a cycle
does not read it: with another RUN the cycle ends in the same state but for RUN. The step clause rests on the spec's decisions D11 (no step
at RUN = 0; log 5) and D3 (the step fetches; log 15); that register 2 is compared whole is D21 (log 21). -/
def Obligations.RunIsOnlyClearedBySyscall : Prop :=
  State.reset.run = true ∧
  (∀ (i : Instr) (s t : State), exec i s = .next t → t.run ≠ s.run → i = .syscall ∧ s.reg 2 = 10 ∧ t.run = false) ∧
  (∀ s t : State, step s = .next t → (t.run = false ↔ decode s.fetchWord = .instr .syscall ∧ s.reg 2 = 10)) ∧
  ∀ (s t : State) (b : Bool), cycle s = .next t → ∃ u, cycle { s with run := b } = .next u ∧ { u with run := t.run } = t

/-- The end of a run (R92, the spec's decision D11; R181; log 5): a step that clears RUN leaves the PC at the SYSCALL's address plus 4, and no
step follows it. That the SYSCALL is the word fetched in that step is the spec's decision D3 (log 15). -/
def Obligations.HaltingSyscallEndsTheRun : Prop :=
  ∀ s t : State, step s = .next t → t.run = false →
    decode s.fetchWord = .instr .syscall ∧ t.pc = s.pc + 4 ∧ step t = .refused .halted

/-- The start of a run. RUN = 1 is R19's ("set at simulation start"); PC, registers, HI, LO and memory are choices of this model
(log 2, log 3). -/
def Obligations.ResetState : Prop :=
  State.reset.run = true ∧ State.reset.pc = 0 ∧ (∀ r, State.reset.reg r = 0) ∧ State.reset.hi = 0 ∧ State.reset.lo = 0 ∧
    ∀ a, State.reset.byteAt a = 0

/-- Memory at the start of a run is in its canonical form (a choice of this model, log 2). -/
def Obligations.ResetMeetsInvariant : Prop := StateInv State.reset

/-- Every step, from every state whose memory is in its canonical form (a choice of this model, log 2), keeps it so. -/
def Obligations.StepKeepsMemoryCanonical : Prop :=
  ∀ s t : State, StateInv s → step s = .next t → StateInv t

/-- The frame rule (R21, the spec's decision D2, log 14; with the table of R13): what the executed instruction does not write is as before.
The destination fields: log 10 (D17). It holds also of an ill-formed shift, which no word encodes: log 19. -/
def Obligations.FrameRule : Prop :=
  ∀ (i : Instr) (s t : State), exec i s = .next t →
    (∀ r, i.dest ≠ some r → t.reg r = s.reg r) ∧
    (¬ i.writesHi → t.hi = s.hi) ∧ (¬ i.writesLo → t.lo = s.lo) ∧
    (¬ i.isStore → SameMemory s t ∧ t.mem = s.mem) ∧
    (i ≠ .syscall → t.run = s.run)

/-- The reads of R13's table: a register an instruction does not read there has no influence on it. Started with another value in that
register, the instruction ends in the same state but for that register, which keeps the other value unless the instruction writes it.
That an unwritten register keeps its value is the frame rule R21, the spec's decision D2 (log 14); the source and destination
fields: log 10 (D17). It holds also of an ill-formed shift, which no word encodes: log 19. -/
def Obligations.UnreadRegistersHaveNoInfluence : Prop :=
  ∀ (i : Instr) (s : State) (r : RegIdx) (v : Word), r ∉ i.reads →
    ∃ t u, exec i s = .next t ∧ exec i (s.setReg r v) = .next u ∧
      u = if i.dest = some r then t else t.setReg r v

/-- R16: HI and LO are written only by MULT, MULTU, DIV, DIVU, MTHI and MTLO, and read only by MFHI and MFLO: changing HI or LO before any
other instruction changes nothing but HI or LO after it (what a writer leaves there: MultiplyResults, SignedDivideResults,
UnsignedDivideResults, HiLoMoveResults). That HI and LO otherwise stay as they were is the frame rule R21, the spec's decision D2 (log 14).
It holds also of an ill-formed shift, which no word encodes: log 19. -/
def Obligations.HiLoSeenOnlyByMoves : Prop :=
  ∀ (i : Instr) (s t : State), exec i s = .next t →
    (t.hi ≠ s.hi → i.writesHi) ∧ (t.lo ≠ s.lo → i.writesLo) ∧
    (∀ v, (∀ rd, i ≠ .mfhi rd) → ∃ u, exec i (s.setHi v) = .next u ∧ u.setHi t.hi = t) ∧
    (∀ v, (∀ rd, i ≠ .mflo rd) → ∃ u, exec i (s.setLo v) = .next u ∧ u.setLo t.lo = t)

/-- R11: register 0 is an ordinary register: ADDI $0, $0, 5 and then ADD $8, $0, $0 leave 10 in register 8 where standard MIPS leaves 0. -/
def Obligations.RegisterZeroIsOrdinary : Prop :=
  (∀ (s : State) (r : RegIdx) (v : Word), (s.setReg r v).reg r = v) ∧
  ∀ s : State, s.reg 0 = 0 → Completes (.addi 0 0 5) s fun t => t.reg 0 = 5 ∧
    Completes (.add 8 0 0) t fun u => u.reg 8 = 10 ∧ u.reg 0 = 5

/-- Every row of R67's table, as what a step does with RUN = 1. The step fetches (D3, log 15); the numbers are D12 (log 9), the width of
the selector of 0x04020000 is D14 (log 12), what is unchanged is D2 (log 14), and that all of register 2 is compared is D21 (log 21). 0x00000000 changes
the PC only, 0x00000040 doubles register 0 (SLL with any operands: ShiftByConstantResults), 0x0000000C halts where register 2 holds 10,
and 0xFFFFFFFF, 0x0000000D, 0x42000018, 0x40xxxxxx and 0x04020000 are no-ops. -/
def Obligations.NotableWords : Prop :=
  ∀ s : State, s.run = true →
    (s.fetchWord = 0x00000000 → step s = .next { s with pc := s.pc + 4 }) ∧
    (s.fetchWord = 0x0000000C → s.reg 2 = 10 → step s = .next { s with pc := s.pc + 4, run := false }) ∧
    (s.fetchWord = 0x0000000C → s.reg 2 ≠ 10 → step s = .next { s with pc := s.pc + 4 }) ∧
    (s.fetchWord ∈ [0xFFFFFFFF, 0x0000000D, 0x42000018, 0x04020000] → step s = .next { s with pc := s.pc + 4 }) ∧
    (s.fetchWord &&& 0xFF000000 = 0x40000000 → step s = .next { s with pc := s.pc + 4 }) ∧
    (s.fetchWord = 0x00000040 → ∃ t, step s = .next t ∧ WritesReg s 0 (fun v => v = s.reg 0 + s.reg 0) t)

/-- A step depends on memory through `read_word` and `write_word` alone (R31, R32 (a), R93; D4, log 1; the fetch: D3, log 15; the stop: D11,
log 5). Over any two memory components: let a relation between their contents be such that related contents return the same word at every
address, and that writing the same word at the same address keeps them related. Then steps from states that agree in everything
but memory, with related memories, end in such states again, or both are refused. So what a run does is fixed by the words its memory
returns. And the machine that runs, from every state with memory in canonical form (the form is the model's choice, log 2), is the core over MEM_LE
as R33 writes it, a total function from addresses to bytes: a step of both ends in states that hold the same bytes, and the form is kept.
What is unchanged: D2, log 14. -/
def Obligations.StepSeesMemoryThroughItsPrimitives : Prop :=
  (∀ (μ ν : Type) (M : MemComponent μ) (N : MemComponent ν) (R : μ → ν → Prop),
    (∀ m n, R m n → ∀ a, M.readWord m a = N.readWord n a) →
    (∀ m n, R m n → ∀ a v, R (M.writeWord m a v) (N.writeWord n a v)) →
    ∀ (s : State μ) (t : State ν), SameCore s t → R s.mem t.mem →
      (s.run = true → ∃ s' t', stepOn M s = .next s' ∧ stepOn N t = .next t' ∧ SameCore s' t' ∧ R s'.mem t'.mem) ∧
      (s.run = false → stepOn M s = .refused .halted ∧ stepOn N t = .refused .halted)) ∧
  ∀ (s : State) (t : State (Word → Byte)), StateInv s → SameCore s t → Memory.Holds s.mem t.mem → s.run = true →
    ∃ s' t', step s = .next s' ∧ stepOn memBytes t = .next t' ∧ StateInv s' ∧ SameCore s' t' ∧ Memory.Holds s'.mem t'.mem

/-! ## Every memory component -/

/-- Loads, stores and the fetch of the core over any memory component at all (R4, U3; R166 to R173, R81): the results of LoadResults and
StoreResults with `MEM` replaced by `M`, and with RUN = 1 a step runs the instruction that `read_word(PC)` of `M` decodes to (D3; log 15).
MEM as a parameter: D4, log 1; frame: D2, log 14. -/
def Obligations.LoadsStoresAndFetchOverEveryMemory : Prop :=
  ∀ (μ : Type) (M : MemComponent μ) (s : State μ),
    (∀ (rt : RegIdx) (imm : Half) (rs : RegIdx),
      let a := s.reg rs + BitVec.ofInt 32 imm.toInt
      let word := M.readWord s.mem a
      let merged := fun n : Nat => BitVec.ofNat 32 (word.toNat / 2 ^ n * 2 ^ n + (s.reg rt).toNat % 2 ^ n)
      CompletesOn M (.lb rt imm rs) s (WritesRegOn s rt fun v => v.toInt = (BitVec.ofNat 8 word.toNat).toInt) ∧
      CompletesOn M (.lh rt imm rs) s (WritesRegOn s rt fun v => v.toInt = (BitVec.ofNat 16 word.toNat).toInt) ∧
      CompletesOn M (.lw rt imm rs) s (WritesRegOn s rt fun v => v = word) ∧
      CompletesOn M (.lbu rt imm rs) s (WritesRegOn s rt fun v => v.toNat = word.toNat % 2 ^ 8) ∧
      CompletesOn M (.lhu rt imm rs) s (WritesRegOn s rt fun v => v.toNat = word.toNat % 2 ^ 16) ∧
      CompletesOn M (.sb rt imm rs) s (WritesMemory s (M.writeWord s.mem a (merged 8))) ∧
      CompletesOn M (.sh rt imm rs) s (WritesMemory s (M.writeWord s.mem a (merged 16))) ∧
      CompletesOn M (.sw rt imm rs) s (WritesMemory s (M.writeWord s.mem a (s.reg rt)))) ∧
    (s.run = true → ∀ i, decode (M.readWord s.mem s.pc) = .instr i → stepOn M s = execOn M i s) ∧
    (s.run = true → ∀ u, decode (M.readWord s.mem s.pc) = .unassigned u → stepOn M s = .next { s with pc := s.pc + 4 })

/-- "every core rule is stated for arbitrary `MEM`" (spec/92_eei_decisions.md D4; R4, U3, R93). The machine that runs is the core at `MEM`
(log 1). From two states that agree in everything but memory, over any two memory components: an instruction that is no load and no store ends in
states that agree again, with both memories as they were; and where the two memories return the same words, a cycle ends in states
that agree again. If the word it fetches (D3, log 15) decodes to SB, SH or SW, both memories are one `write_word` of the same merged word
at the instruction's address `x[rs] + extended_imm` (R60, R171 to R173); if not, both are as they were (D2, log 14).
The instruction clause holds also of an ill-formed shift, which no word encodes: log 19. -/
def Obligations.EveryMemoryRunsTheSameCore : Prop :=
  (∀ (i : Instr) (s : State), exec i s = execOn MEM i s) ∧ (∀ s : State, cycle s = cycleOn MEM s) ∧ (∀ s : State, step s = stepOn MEM s) ∧
  ∀ (μ ν : Type) (M : MemComponent μ) (N : MemComponent ν) (s : State μ) (t : State ν), SameCore s t →
    (∀ i : Instr, ¬ i.isLoad → ¬ i.isStore →
      ∃ s' t', execOn M i s = .next s' ∧ execOn N i t = .next t' ∧ SameCore s' t' ∧ s'.mem = s.mem ∧ t'.mem = t.mem) ∧
    ((∀ a, M.readWord s.mem a = N.readWord t.mem a) →
      ∃ s' t', cycleOn M s = .next s' ∧ cycleOn N t = .next t' ∧ SameCore s' t' ∧
        (∀ (rt : RegIdx) (imm : Half) (rs : RegIdx),
          let a := effAddr s rs imm
          let merged := fun n : Nat => BitVec.ofNat 32 ((M.readWord s.mem a).toNat / 2 ^ n * 2 ^ n + (s.reg rt).toNat % 2 ^ n)
          let bothStore := fun v => s'.mem = M.writeWord s.mem a v ∧ t'.mem = N.writeWord t.mem a v
          (decode (s.fetchFrom M) = .instr (.sb rt imm rs) → bothStore (merged 8)) ∧
          (decode (s.fetchFrom M) = .instr (.sh rt imm rs) → bothStore (merged 16)) ∧
          (decode (s.fetchFrom M) = .instr (.sw rt imm rs) → bothStore (s.reg rt))) ∧
        ((∀ i : Instr, decode (s.fetchFrom M) = .instr i → ¬ i.isStore) → s'.mem = s.mem ∧ t'.mem = t.mem))
end

