-- ==== Sys2Proof/Laws/Decode.lean ====
section
/-! SUPPORT. The fields of the three formats' words, and the dispatch read off the fields. -/

namespace Sys2Proof

@[simp] theorem regOfField_fieldOfReg (r : RegIdx) : regOfField (fieldOfReg r) = r := rfl

@[simp] theorem fieldOfReg_regOfField (b : BitVec 5) : fieldOfReg (regOfField b) = b := rfl

theorem fieldOfReg_injective {r r' : RegIdx} (h : fieldOfReg r = fieldOfReg r') : r = r' := by
  rw [← regOfField_fieldOfReg r, h, regOfField_fieldOfReg]

/-! ## R-type -/

section
variable (op : BitVec 6) (rs rt rd : RegIdx) (shamt : Nat) (funct : BitVec 6)

@[simp] theorem fieldOp_rType : fieldOp (rType op rs rt rd shamt funct) = op := by
  apply BitVec.eq_of_getLsbD_eq
  intro i hi
  simp only [fieldOp, rType, BitVec.getLsbD_extractLsb', BitVec.getLsbD_append]
  rw [if_neg (by omega), if_neg (by omega), if_neg (by omega), if_neg (by omega), if_neg (by omega)]
  simp only [hi, decide_true, Bool.true_and]
  congr 1; omega

@[simp] theorem fieldRs_rType : fieldRs (rType op rs rt rd shamt funct) = fieldOfReg rs := by
  apply BitVec.eq_of_getLsbD_eq
  intro i hi
  simp only [fieldRs, rType, BitVec.getLsbD_extractLsb', BitVec.getLsbD_append]
  rw [if_neg (by omega), if_neg (by omega), if_neg (by omega), if_neg (by omega), if_pos (by omega)]
  simp only [hi, decide_true, Bool.true_and]
  congr 1; omega

@[simp] theorem fieldRt_rType : fieldRt (rType op rs rt rd shamt funct) = fieldOfReg rt := by
  apply BitVec.eq_of_getLsbD_eq
  intro i hi
  simp only [fieldRt, rType, BitVec.getLsbD_extractLsb', BitVec.getLsbD_append]
  rw [if_neg (by omega), if_neg (by omega), if_neg (by omega), if_pos (by omega)]
  simp only [hi, decide_true, Bool.true_and]
  congr 1; omega

@[simp] theorem fieldRd_rType : fieldRd (rType op rs rt rd shamt funct) = fieldOfReg rd := by
  apply BitVec.eq_of_getLsbD_eq
  intro i hi
  simp only [fieldRd, rType, BitVec.getLsbD_extractLsb', BitVec.getLsbD_append]
  rw [if_neg (by omega), if_neg (by omega), if_pos (by omega)]
  simp only [hi, decide_true, Bool.true_and]
  congr 1; omega

@[simp] theorem fieldShamt_rType : fieldShamt (rType op rs rt rd shamt funct) = BitVec.ofNat 5 shamt := by
  apply BitVec.eq_of_getLsbD_eq
  intro i hi
  simp only [fieldShamt, rType, BitVec.getLsbD_extractLsb', BitVec.getLsbD_append]
  rw [if_neg (by omega), if_pos (by omega)]
  simp only [hi, decide_true, Bool.true_and]
  congr 1; omega

@[simp] theorem fieldFunct_rType : fieldFunct (rType op rs rt rd shamt funct) = funct := by
  apply BitVec.eq_of_getLsbD_eq
  intro i hi
  simp only [fieldFunct, rType, BitVec.getLsbD_extractLsb', BitVec.getLsbD_append]
  rw [if_pos (by omega)]
  simp only [hi, decide_true, Bool.true_and]
  congr 1; omega

end

/-! ## I-type and J-type -/

section
variable (op : BitVec 6) (rs rt : RegIdx) (imm : Half)

@[simp] theorem fieldOp_iType : fieldOp (iType op rs rt imm) = op := by
  apply BitVec.eq_of_getLsbD_eq
  intro i hi
  simp only [fieldOp, iType, BitVec.getLsbD_extractLsb', BitVec.getLsbD_append]
  rw [if_neg (by omega), if_neg (by omega), if_neg (by omega)]
  simp only [hi, decide_true, Bool.true_and]
  congr 1; omega

@[simp] theorem fieldRs_iType : fieldRs (iType op rs rt imm) = fieldOfReg rs := by
  apply BitVec.eq_of_getLsbD_eq
  intro i hi
  simp only [fieldRs, iType, BitVec.getLsbD_extractLsb', BitVec.getLsbD_append]
  rw [if_neg (by omega), if_neg (by omega), if_pos (by omega)]
  simp only [hi, decide_true, Bool.true_and]
  congr 1; omega

@[simp] theorem fieldRt_iType : fieldRt (iType op rs rt imm) = fieldOfReg rt := by
  apply BitVec.eq_of_getLsbD_eq
  intro i hi
  simp only [fieldRt, iType, BitVec.getLsbD_extractLsb', BitVec.getLsbD_append]
  rw [if_neg (by omega), if_pos (by omega)]
  simp only [hi, decide_true, Bool.true_and]
  congr 1; omega

@[simp] theorem fieldImm_iType : fieldImm (iType op rs rt imm) = imm := by
  apply BitVec.eq_of_getLsbD_eq
  intro i hi
  simp only [fieldImm, iType, BitVec.getLsbD_extractLsb', BitVec.getLsbD_append]
  rw [if_pos (by omega)]
  simp only [hi, decide_true, Bool.true_and]
  congr 1; omega

end

@[simp] theorem fieldOp_jType (op : BitVec 6) (tgt26 : BitVec 26) : fieldOp (jType op tgt26) = op := by
  apply BitVec.eq_of_getLsbD_eq
  intro i hi
  simp only [fieldOp, jType, BitVec.getLsbD_extractLsb', BitVec.getLsbD_append]
  rw [if_neg (by omega)]
  simp only [hi, decide_true, Bool.true_and]
  congr 1; omega

@[simp] theorem fieldTgt26_jType (op : BitVec 6) (tgt26 : BitVec 26) : fieldTgt26 (jType op tgt26) = tgt26 := by
  apply BitVec.eq_of_getLsbD_eq
  intro i hi
  simp only [fieldTgt26, jType, BitVec.getLsbD_extractLsb', BitVec.getLsbD_append]
  rw [if_pos (by omega)]
  simp only [hi, decide_true, Bool.true_and]
  congr 1; omega

/-! ## A masked word's fields -/

/-- A word that agrees with `m` on the opcode has `m`'s opcode. -/
theorem fieldOp_of_mask {w mask m : Word} (hm : fieldOp mask = BitVec.allOnes 6) (h : w &&& mask = m) : fieldOp w = fieldOp m := by
  rw [← h]; unfold fieldOp at *; rw [BitVec.extractLsb'_and, hm, BitVec.and_allOnes]

theorem fieldFunct_of_mask {w mask m : Word} (hm : fieldFunct mask = BitVec.allOnes 6) (h : w &&& mask = m) :
    fieldFunct w = fieldFunct m := by
  rw [← h]; unfold fieldFunct at *; rw [BitVec.extractLsb'_and, hm, BitVec.and_allOnes]

theorem fieldRt_of_mask {w mask m : Word} (hm : fieldRt mask = BitVec.allOnes 5) (h : w &&& mask = m) : fieldRt w = fieldRt m := by
  rw [← h]; unfold fieldRt at *; rw [BitVec.extractLsb'_and, hm, BitVec.and_allOnes]

/-! ## The dispatch, level by level -/

theorem decode_of_op0 {w : Word} (h : fieldOp w = 0x00#6) : decode w = decodeFunct w := by
  simp [decode, h]

theorem decode_of_op1 {w : Word} (h : fieldOp w = 0x01#6) : decode w = decodeSelector w := by
  simp [decode, h]

theorem wordOfBytes_bytes (w : Word) : wordOfBytes (byteOfWord w 0) (byteOfWord w 1) (byteOfWord w 2) (byteOfWord w 3) = w := by
  apply BitVec.eq_of_getLsbD_eq
  intro i hi
  simp only [byteOfWord, wordOfBytes, BitVec.getLsbD_append, BitVec.getLsbD_extractLsb']
  rcases (by omega : i < 8 ∨ 8 ≤ i ∧ i < 16 ∨ 16 ≤ i ∧ i < 24 ∨ 24 ≤ i) with h | h | h | h
  · simp [h]
  · simp [show ¬ i < 8 by omega, show i - 8 < 8 by omega]; congr 1; omega
  · simp [show ¬ i < 8 by omega, show ¬ i - 8 < 8 by omega, show i - 8 - 8 < 8 by omega]; congr 1; omega
  · simp [show ¬ i < 8 by omega, show ¬ i - 8 < 8 by omega, show ¬ i - 8 - 8 < 8 by omega, show i - 8 - 8 - 8 < 8 by omega]
    congr 1; omega

/-- Decoding the bytes of a word is decoding the word. -/
theorem decodeBytes_bytesOfWord (w : Word) (rest : List Byte) : decodeBytes (bytesOfWord w ++ rest) = .word (decode w) rest := by
  simp [bytesOfWord, decodeBytes, wordOfBytes_bytes]

end Sys2Proof
end

