-- ==== Sys2Proof/Laws/State.lean ====
section
/-! SUPPORT. One lemma for each field and each update of State, so that no proof unfolds a record update. -/

namespace Sys2Proof.Machine

variable {μ ν : Type} (s : State μ)

/-! ## Registers -/

@[simp] theorem State.reg_setReg_same (r : RegIdx) (v : Word) : (s.setReg r v).reg r = v := by
  simp [State.reg, State.setReg]

theorem State.reg_setReg_ne {r r' : RegIdx} (h : r' ≠ r) (v : Word) : (s.setReg r v).reg r' = s.reg r' := by
  have : r.val ≠ r'.val := fun e => h (Fin.ext e.symm)
  simp [State.reg, State.setReg, this]

theorem State.reg_setReg (r r' : RegIdx) (v : Word) : (s.setReg r v).reg r' = if r' = r then v else s.reg r' := by
  by_cases h : r' = r
  · subst h; simp
  · simp [State.reg_setReg_ne s h, h]

/-- Two states with the same registers read through `reg` have the same register file. -/
theorem State.regs_ext {s : State μ} {t : State ν} (h : ∀ r, s.reg r = t.reg r) : s.regs = t.regs := by
  apply Vector.ext
  intro i hi
  exact h ⟨i, hi⟩

/-- Equality of states, field by field, registers through `reg`. -/
theorem State.ext_reg {s t : State μ} (hpc : s.pc = t.pc) (hreg : ∀ r, s.reg r = t.reg r) (hhi : s.hi = t.hi) (hlo : s.lo = t.lo)
    (hrun : s.run = t.run) (hmem : s.mem = t.mem) : s = t := by
  have hregs := State.regs_ext hreg
  cases s; cases t; simp_all

/-! ## setReg -/

@[simp] theorem State.setReg_pc (r : RegIdx) (v : Word) : (s.setReg r v).pc = s.pc := rfl
@[simp] theorem State.setReg_hi (r : RegIdx) (v : Word) : (s.setReg r v).hi = s.hi := rfl
@[simp] theorem State.setReg_lo (r : RegIdx) (v : Word) : (s.setReg r v).lo = s.lo := rfl
@[simp] theorem State.setReg_run (r : RegIdx) (v : Word) : (s.setReg r v).run = s.run := rfl
@[simp] theorem State.setReg_mem (r : RegIdx) (v : Word) : (s.setReg r v).mem = s.mem := rfl
@[simp] theorem State.setReg_byteAt (s : State) (r : RegIdx) (v : Word) (b : Word) : (s.setReg r v).byteAt b = s.byteAt b := rfl

/-! ## setPc -/

@[simp] theorem State.setPc_pc (v : Word) : (s.setPc v).pc = v := rfl
@[simp] theorem State.setPc_hi (v : Word) : (s.setPc v).hi = s.hi := rfl
@[simp] theorem State.setPc_lo (v : Word) : (s.setPc v).lo = s.lo := rfl
@[simp] theorem State.setPc_run (v : Word) : (s.setPc v).run = s.run := rfl
@[simp] theorem State.setPc_mem (v : Word) : (s.setPc v).mem = s.mem := rfl
@[simp] theorem State.setPc_regs (v : Word) : (s.setPc v).regs = s.regs := rfl
@[simp] theorem State.setPc_reg (v : Word) (r' : RegIdx) : (s.setPc v).reg r' = s.reg r' := rfl
@[simp] theorem State.setPc_byteAt (s : State) (v : Word) (b : Word) : (s.setPc v).byteAt b = s.byteAt b := rfl

/-! ## setHi -/

@[simp] theorem State.setHi_pc (v : Word) : (s.setHi v).pc = s.pc := rfl
@[simp] theorem State.setHi_hi (v : Word) : (s.setHi v).hi = v := rfl
@[simp] theorem State.setHi_lo (v : Word) : (s.setHi v).lo = s.lo := rfl
@[simp] theorem State.setHi_run (v : Word) : (s.setHi v).run = s.run := rfl
@[simp] theorem State.setHi_mem (v : Word) : (s.setHi v).mem = s.mem := rfl
@[simp] theorem State.setHi_regs (v : Word) : (s.setHi v).regs = s.regs := rfl
@[simp] theorem State.setHi_reg (v : Word) (r' : RegIdx) : (s.setHi v).reg r' = s.reg r' := rfl
@[simp] theorem State.setHi_byteAt (s : State) (v : Word) (b : Word) : (s.setHi v).byteAt b = s.byteAt b := rfl

/-! ## setLo -/

@[simp] theorem State.setLo_pc (v : Word) : (s.setLo v).pc = s.pc := rfl
@[simp] theorem State.setLo_hi (v : Word) : (s.setLo v).hi = s.hi := rfl
@[simp] theorem State.setLo_lo (v : Word) : (s.setLo v).lo = v := rfl
@[simp] theorem State.setLo_run (v : Word) : (s.setLo v).run = s.run := rfl
@[simp] theorem State.setLo_mem (v : Word) : (s.setLo v).mem = s.mem := rfl
@[simp] theorem State.setLo_regs (v : Word) : (s.setLo v).regs = s.regs := rfl
@[simp] theorem State.setLo_reg (v : Word) (r' : RegIdx) : (s.setLo v).reg r' = s.reg r' := rfl
@[simp] theorem State.setLo_byteAt (s : State) (v : Word) (b : Word) : (s.setLo v).byteAt b = s.byteAt b := rfl

/-! ## setHiLo -/

@[simp] theorem State.setHiLo_pc (p : Word × Word) : (s.setHiLo p).pc = s.pc := rfl
@[simp] theorem State.setHiLo_hi (p : Word × Word) : (s.setHiLo p).hi = p.1 := rfl
@[simp] theorem State.setHiLo_lo (p : Word × Word) : (s.setHiLo p).lo = p.2 := rfl
@[simp] theorem State.setHiLo_run (p : Word × Word) : (s.setHiLo p).run = s.run := rfl
@[simp] theorem State.setHiLo_mem (p : Word × Word) : (s.setHiLo p).mem = s.mem := rfl
@[simp] theorem State.setHiLo_regs (p : Word × Word) : (s.setHiLo p).regs = s.regs := rfl
@[simp] theorem State.setHiLo_reg (p : Word × Word) (r' : RegIdx) : (s.setHiLo p).reg r' = s.reg r' := rfl
@[simp] theorem State.setHiLo_byteAt (s : State) (p : Word × Word) (b : Word) : (s.setHiLo p).byteAt b = s.byteAt b := rfl

/-! ## clearRun -/

@[simp] theorem State.clearRun_pc : (s.clearRun).pc = s.pc := rfl
@[simp] theorem State.clearRun_hi : (s.clearRun).hi = s.hi := rfl
@[simp] theorem State.clearRun_lo : (s.clearRun).lo = s.lo := rfl
@[simp] theorem State.clearRun_run : (s.clearRun).run = false := rfl
@[simp] theorem State.clearRun_mem : (s.clearRun).mem = s.mem := rfl
@[simp] theorem State.clearRun_regs : (s.clearRun).regs = s.regs := rfl
@[simp] theorem State.clearRun_reg (r' : RegIdx) : (s.clearRun).reg r' = s.reg r' := rfl
@[simp] theorem State.clearRun_byteAt (s : State) (b : Word) : (s.clearRun).byteAt b = s.byteAt b := rfl

/-! ## defaultNext -/

@[simp] theorem State.defaultNext_pc : (s.defaultNext).pc = s.pc + 4 := rfl
@[simp] theorem State.defaultNext_hi : (s.defaultNext).hi = s.hi := rfl
@[simp] theorem State.defaultNext_lo : (s.defaultNext).lo = s.lo := rfl
@[simp] theorem State.defaultNext_run : (s.defaultNext).run = s.run := rfl
@[simp] theorem State.defaultNext_mem : (s.defaultNext).mem = s.mem := rfl
@[simp] theorem State.defaultNext_regs : (s.defaultNext).regs = s.regs := rfl
@[simp] theorem State.defaultNext_reg (r' : RegIdx) : (s.defaultNext).reg r' = s.reg r' := rfl
@[simp] theorem State.defaultNext_byteAt (s : State) (b : Word) : (s.defaultNext).byteAt b = s.byteAt b := rfl

/-! ## store1 -/

@[simp] theorem State.store1_pc (M : MemComponent μ) (a : Word) (v : Byte) : (s.store1 M a v).pc = s.pc := rfl
@[simp] theorem State.store1_hi (M : MemComponent μ) (a : Word) (v : Byte) : (s.store1 M a v).hi = s.hi := rfl
@[simp] theorem State.store1_lo (M : MemComponent μ) (a : Word) (v : Byte) : (s.store1 M a v).lo = s.lo := rfl
@[simp] theorem State.store1_run (M : MemComponent μ) (a : Word) (v : Byte) : (s.store1 M a v).run = s.run := rfl
@[simp] theorem State.store1_mem (M : MemComponent μ) (a : Word) (v : Byte) : (s.store1 M a v).mem = M.memWrite1 s.mem a v := rfl
@[simp] theorem State.store1_regs (M : MemComponent μ) (a : Word) (v : Byte) : (s.store1 M a v).regs = s.regs := rfl
@[simp] theorem State.store1_reg (M : MemComponent μ) (a : Word) (v : Byte) (r' : RegIdx) : (s.store1 M a v).reg r' = s.reg r' := rfl

/-! ## store2 -/

@[simp] theorem State.store2_pc (M : MemComponent μ) (a : Word) (v : Half) : (s.store2 M a v).pc = s.pc := rfl
@[simp] theorem State.store2_hi (M : MemComponent μ) (a : Word) (v : Half) : (s.store2 M a v).hi = s.hi := rfl
@[simp] theorem State.store2_lo (M : MemComponent μ) (a : Word) (v : Half) : (s.store2 M a v).lo = s.lo := rfl
@[simp] theorem State.store2_run (M : MemComponent μ) (a : Word) (v : Half) : (s.store2 M a v).run = s.run := rfl
@[simp] theorem State.store2_mem (M : MemComponent μ) (a : Word) (v : Half) : (s.store2 M a v).mem = M.memWrite2 s.mem a v := rfl
@[simp] theorem State.store2_regs (M : MemComponent μ) (a : Word) (v : Half) : (s.store2 M a v).regs = s.regs := rfl
@[simp] theorem State.store2_reg (M : MemComponent μ) (a : Word) (v : Half) (r' : RegIdx) : (s.store2 M a v).reg r' = s.reg r' := rfl

/-! ## store4 -/

@[simp] theorem State.store4_pc (M : MemComponent μ) (a v : Word) : (s.store4 M a v).pc = s.pc := rfl
@[simp] theorem State.store4_hi (M : MemComponent μ) (a v : Word) : (s.store4 M a v).hi = s.hi := rfl
@[simp] theorem State.store4_lo (M : MemComponent μ) (a v : Word) : (s.store4 M a v).lo = s.lo := rfl
@[simp] theorem State.store4_run (M : MemComponent μ) (a v : Word) : (s.store4 M a v).run = s.run := rfl
@[simp] theorem State.store4_mem (M : MemComponent μ) (a v : Word) : (s.store4 M a v).mem = M.memWrite4 s.mem a v := rfl
@[simp] theorem State.store4_regs (M : MemComponent μ) (a v : Word) : (s.store4 M a v).regs = s.regs := rfl
@[simp] theorem State.store4_reg (M : MemComponent μ) (a v : Word) (r' : RegIdx) : (s.store4 M a v).reg r' = s.reg r' := rfl

/-! ## placeWord -/

@[simp] theorem State.placeWord_pc (M : MemComponent μ) (w : Word) : (s.placeWord M w).pc = s.pc := rfl
@[simp] theorem State.placeWord_hi (M : MemComponent μ) (w : Word) : (s.placeWord M w).hi = s.hi := rfl
@[simp] theorem State.placeWord_lo (M : MemComponent μ) (w : Word) : (s.placeWord M w).lo = s.lo := rfl
@[simp] theorem State.placeWord_run (M : MemComponent μ) (w : Word) : (s.placeWord M w).run = s.run := rfl
@[simp] theorem State.placeWord_mem (M : MemComponent μ) (w : Word) : (s.placeWord M w).mem = M.writeWord s.mem s.pc w := rfl
@[simp] theorem State.placeWord_regs (M : MemComponent μ) (w : Word) : (s.placeWord M w).regs = s.regs := rfl
@[simp] theorem State.placeWord_reg (M : MemComponent μ) (w : Word) (r' : RegIdx) : (s.placeWord M w).reg r' = s.reg r' := rfl

/-! ## branchIf, fetchWord, withFetchWord -/

@[simp] theorem State.branchIf_hi (c : Bool) (pc : Word) (imm : Half) : (s.branchIf c pc imm).hi = s.hi := by
  cases c <;> rfl
@[simp] theorem State.branchIf_lo (c : Bool) (pc : Word) (imm : Half) : (s.branchIf c pc imm).lo = s.lo := by
  cases c <;> rfl
@[simp] theorem State.branchIf_run (c : Bool) (pc : Word) (imm : Half) : (s.branchIf c pc imm).run = s.run := by
  cases c <;> rfl
@[simp] theorem State.branchIf_mem (c : Bool) (pc : Word) (imm : Half) : (s.branchIf c pc imm).mem = s.mem := by
  cases c <;> rfl
@[simp] theorem State.branchIf_regs (c : Bool) (pc : Word) (imm : Half) : (s.branchIf c pc imm).regs = s.regs := by
  cases c <;> rfl
@[simp] theorem State.branchIf_reg (c : Bool) (pc : Word) (imm : Half) (r : RegIdx) : (s.branchIf c pc imm).reg r = s.reg r := by
  cases c <;> rfl
@[simp] theorem State.branchIf_byteAt (s : State) (c : Bool) (pc : Word) (imm : Half) (b : Word) :
    (s.branchIf c pc imm).byteAt b = s.byteAt b := by
  cases c <;> rfl
@[simp] theorem State.branchIf_pc (c : Bool) (pc : Word) (imm : Half) :
    (s.branchIf c pc imm).pc = if c then branchDest pc imm else s.pc := by
  cases c <;> rfl

theorem State.fetchFrom_eq (M : MemComponent μ) : s.fetchFrom M = M.readWord s.mem s.pc := rfl

theorem State.fetchWord_eq (s : State) : s.fetchWord = MEM.readWord s.mem s.pc := rfl

theorem State.byteAt_eq (s : State) (a : Word) : s.byteAt a = s.mem.readByte a := rfl

end Sys2Proof.Machine
end

