-- ==== Sys2Proof/Laws/Memory.lean ====
section
/-! SUPPORT. The laws of memory: a byte read after a byte written, the words of MEM_LE byte by byte, and the canonical form, which every
operation keeps. The read laws hold of every list, canonical or not. -/

namespace Sys2Proof.Machine

/-! ## Lookup after insert and erase -/

theorem Memory.lookup_insert_same (m : Memory) (a : Nat) (b : Byte) : (m.insert a b).lookup a = some b := by
  induction m with
  | nil => simp [Memory.insert, Memory.lookup]
  | cons c rest ih =>
    unfold Memory.insert
    split_ifs with h h'
    · simp [Memory.lookup]
    · simp [Memory.lookup]
    · simp [Memory.lookup, h, ih]

theorem Memory.lookup_insert_ne (m : Memory) {a a' : Nat} (h : a' ≠ a) (b : Byte) : (m.insert a b).lookup a' = m.lookup a' := by
  induction m with
  | nil => simp [Memory.insert, Memory.lookup, h.symm]
  | cons c rest ih =>
    unfold Memory.insert
    split_ifs with h1 h2
    · have : c.1 ≠ a' := fun e => h (e.symm.trans h1)
      simp [Memory.lookup, h.symm, this]
    · simp [Memory.lookup, h.symm]
    · simp only [Memory.lookup, ih]

theorem Memory.lookup_erase_same (m : Memory) (a : Nat) : (m.erase a).lookup a = none := by
  induction m with
  | nil => rfl
  | cons c rest ih =>
    by_cases h : c.1 = a
    · simpa [Memory.erase, List.filter, h] using ih
    · have h2 : (c.1 != a) = true := by simpa using h
      simpa [Memory.erase, List.filter, h2, Memory.lookup, h] using ih

theorem Memory.lookup_erase_ne (m : Memory) {a a' : Nat} (h : a' ≠ a) : (m.erase a).lookup a' = m.lookup a' := by
  induction m with
  | nil => rfl
  | cons c rest ih =>
    by_cases h1 : c.1 = a
    · have h3 : c.1 ≠ a' := fun e => h (e.symm.trans h1)
      simpa [Memory.erase, List.filter, h1, Memory.lookup, h.symm] using ih
    · have h2 : (c.1 != a) = true := by simpa using h1
      simp only [Memory.erase, List.filter, h2, Memory.lookup] at ih ⊢
      split_ifs
      · rfl
      · exact ih

/-! ## Bytes -/

@[simp] theorem Memory.readByte_writeByte_same (m : Memory) (a : Word) (b : Byte) : (m.writeByte a b).readByte a = b := by
  unfold Memory.writeByte Memory.readByte
  split_ifs with h
  · simp [Memory.lookup_erase_same, h]
  · simp [Memory.lookup_insert_same]

theorem Memory.readByte_writeByte_ne (m : Memory) {a a' : Word} (h : a' ≠ a) (b : Byte) :
    (m.writeByte a b).readByte a' = m.readByte a' := by
  have hn : a'.toNat ≠ a.toNat := fun e => h (BitVec.eq_of_toNat_eq e)
  unfold Memory.writeByte Memory.readByte
  split_ifs
  · rw [Memory.lookup_erase_ne m hn]
  · rw [Memory.lookup_insert_ne m hn]

theorem Memory.readByte_writeByte (m : Memory) (a a' : Word) (b : Byte) :
    (m.writeByte a b).readByte a' = if a' = a then b else m.readByte a' := by
  by_cases h : a' = a
  · subst h; simp
  · simp [Memory.readByte_writeByte_ne m h, h]

@[simp] theorem Memory.readByte_nil (a : Word) : Memory.readByte [] a = Config.unwrittenByte := rfl

/-! ## Words -/

/-- Byte `a'` of memory after `write_word` of MEM_LE: one of the four written bytes, or what it was. -/
theorem Memory.readByte_writeWordLE (m : Memory) (a v a' : Word) :
    (m.writeWordLE a v).readByte a' =
      if a' = a + 3 then byteOfWord v 3 else if a' = a + 2 then byteOfWord v 2 else if a' = a + 1 then byteOfWord v 1
      else if a' = a then byteOfWord v 0 else m.readByte a' := by
  simp [Memory.writeWordLE, Memory.readByte_writeByte]

theorem byteOfWord_wordOfBytes (b0 b1 b2 b3 : Byte) :
    byteOfWord (wordOfBytes b0 b1 b2 b3) 0 = b0 ∧ byteOfWord (wordOfBytes b0 b1 b2 b3) 1 = b1 ∧
      byteOfWord (wordOfBytes b0 b1 b2 b3) 2 = b2 ∧ byteOfWord (wordOfBytes b0 b1 b2 b3) 3 = b3 := by
  refine ⟨?_, ?_, ?_, ?_⟩ <;>
  · ext i hi
    simp only [byteOfWord, wordOfBytes, BitVec.getElem_extractLsb', BitVec.getLsbD_append]
    repeat' split
    all_goals first | omega | (congr 1; omega) | (rw [← BitVec.getLsbD_eq_getElem]; congr 1; omega)

/-- The number four bytes stand for. -/
theorem wordOfBytes_toNat (b0 b1 b2 b3 : Byte) :
    (wordOfBytes b0 b1 b2 b3).toNat = b0.toNat + 2 ^ 8 * b1.toNat + 2 ^ 16 * b2.toNat + 2 ^ 24 * b3.toNat := by
  have := b0.isLt
  have := b1.isLt
  have := b2.isLt
  have := b3.isLt
  unfold wordOfBytes
  rw [BitVec.toNat_append, BitVec.toNat_append, BitVec.toNat_append, ← Nat.shiftLeft_add_eq_or_of_lt (by omega),
    ← Nat.shiftLeft_add_eq_or_of_lt (by omega), ← Nat.shiftLeft_add_eq_or_of_lt (by omega)]
  simp only [Nat.shiftLeft_eq]
  omega

theorem byteOfWord_toNat (w : Word) (k : Nat) : (byteOfWord w k).toNat = w.toNat / 2 ^ (8 * k) % 2 ^ 8 := by
  simp [byteOfWord, BitVec.extractLsb'_toNat, Nat.shiftRight_eq_div_pow]

/-- Two words with the same four bytes are the same word. -/
theorem word_eq_of_bytes {v w : Word} (h : ∀ k, k < 4 → byteOfWord v k = byteOfWord w k) : v = w := by
  rw [← wordOfBytes_bytes v, ← wordOfBytes_bytes w, h 0 (by omega), h 1 (by omega), h 2 (by omega), h 3 (by omega)]

/-- The bytes of the word MemWrite(a, 1, v) writes (R39). -/
theorem byteOfWord_mergeByte (w : Word) (v : Byte) :
    byteOfWord ((w &&& 0xFFFFFF00) ||| v.setWidth 32) 0 = v ∧
      byteOfWord ((w &&& 0xFFFFFF00) ||| v.setWidth 32) 1 = byteOfWord w 1 ∧
      byteOfWord ((w &&& 0xFFFFFF00) ||| v.setWidth 32) 2 = byteOfWord w 2 ∧
      byteOfWord ((w &&& 0xFFFFFF00) ||| v.setWidth 32) 3 = byteOfWord w 3 := by
  refine ⟨?_, ?_, ?_, ?_⟩ <;>
  · ext i hi
    simp only [byteOfWord, BitVec.getElem_extractLsb', BitVec.getLsbD_or, BitVec.getLsbD_and, BitVec.getLsbD_setWidth]
    rcases (by omega : i = 0 ∨ i = 1 ∨ i = 2 ∨ i = 3 ∨ i = 4 ∨ i = 5 ∨ i = 6 ∨ i = 7) with h | h | h | h | h | h | h | h <;>
      subst h <;> simp

/-- The bytes of the word MemWrite(a, 2, v) writes (R40). -/
theorem byteOfWord_mergeHalf (w : Word) (v : Half) :
    byteOfWord ((w &&& 0xFFFF0000) ||| v.setWidth 32) 0 = v.extractLsb' 0 8 ∧
      byteOfWord ((w &&& 0xFFFF0000) ||| v.setWidth 32) 1 = v.extractLsb' 8 8 ∧
      byteOfWord ((w &&& 0xFFFF0000) ||| v.setWidth 32) 2 = byteOfWord w 2 ∧
      byteOfWord ((w &&& 0xFFFF0000) ||| v.setWidth 32) 3 = byteOfWord w 3 := by
  refine ⟨?_, ?_, ?_, ?_⟩ <;>
  · ext i hi
    simp only [byteOfWord, BitVec.getElem_extractLsb', BitVec.getLsbD_or, BitVec.getLsbD_and, BitVec.getLsbD_setWidth]
    rcases (by omega : i = 0 ∨ i = 1 ∨ i = 2 ∨ i = 3 ∨ i = 4 ∨ i = 5 ∨ i = 6 ∨ i = 7) with h | h | h | h | h | h | h | h <;>
      subst h <;> simp

/-- Reading MEM_LE needs the four bytes at the address and nothing else. -/
theorem Memory.readWordLE_congr {m m' : Memory} (h : ∀ a, m'.readByte a = m.readByte a) (a : Word) :
    m'.readWordLE a = m.readWordLE a := by
  simp only [Memory.readWordLE, h]

/-- Writing the same word into memories that read alike leaves them reading alike. -/
theorem Memory.readByte_writeWordLE_congr {m m' : Memory} (h : ∀ a, m'.readByte a = m.readByte a) (a v b : Word) :
    (m'.writeWordLE a v).readByte b = (m.writeWordLE a v).readByte b := by
  simp only [Memory.readByte_writeWordLE, h]

theorem MEM_readWord (m : Memory) (a : Word) : MEM.readWord m a = m.readWordLE a := rfl

theorem MEM_writeWord (m : Memory) (a v : Word) : MEM.writeWord m a v = m.writeWordLE a v := rfl

/-- Memory that holds the bytes of `B` returns the words of MEM_LE over `B`. -/
theorem Memory.Holds.readWord {m : Memory} {B : Word → Byte} (h : m.Holds B) (a : Word) : MEM.readWord m a = memBytes.readWord B a := by
  simp only [MEM_readWord, Memory.readWordLE, memBytes, h _]

/-- And goes on holding them when the same word is written at the same address. -/
theorem Memory.Holds.writeWord {m : Memory} {B : Word → Byte} (h : m.Holds B) (a v : Word) :
    Memory.Holds (MEM.writeWord m a v) (memBytes.writeWord B a v) := by
  intro b
  rw [MEM_writeWord, Memory.readByte_writeWordLE, h b]
  by_cases h0 : b = a
  · subst h0; simp [memBytes]
  · by_cases h1 : b = a + 1
    · subst h1; simp [memBytes]
    · by_cases h2 : b = a + 2
      · subst h2; simp [memBytes]
      · simp only [memBytes, if_neg h0, if_neg h1, if_neg h2]

/-! ## The canonical form -/

theorem Memory.risingFrom_mono {m : Memory} {l l' : Nat} (h : m.risingFrom l = true) (hl : l' ≤ l) : m.risingFrom l' = true := by
  cases m with
  | nil => rfl
  | cons c rest =>
    simp only [Memory.risingFrom, Bool.and_eq_true, decide_eq_true_eq] at h ⊢
    exact ⟨by omega, h.2⟩

theorem Memory.risingFrom_erase {m : Memory} {l : Nat} (a : Nat) (h : m.risingFrom l = true) : (m.erase a).risingFrom l = true := by
  induction m generalizing l with
  | nil => rfl
  | cons c rest ih =>
    simp only [Memory.risingFrom, Bool.and_eq_true, decide_eq_true_eq] at h
    by_cases h1 : c.1 = a
    · have := ih h.2
      simpa [Memory.erase, List.filter, h1] using Memory.risingFrom_mono this (by omega)
    · have h2 : (c.1 != a) = true := by simpa using h1
      have := ih h.2
      simp only [Memory.erase, List.filter, h2, Memory.risingFrom, Bool.and_eq_true, decide_eq_true_eq]
      exact ⟨h.1, this⟩

theorem Memory.risingFrom_insert {m : Memory} {l a : Nat} (b : Byte) (hl : l ≤ a) (h : m.risingFrom l = true) :
    (m.insert a b).risingFrom l = true := by
  induction m generalizing l with
  | nil => simp [Memory.insert, Memory.risingFrom, hl]
  | cons c rest ih =>
    simp only [Memory.risingFrom, Bool.and_eq_true, decide_eq_true_eq] at h
    unfold Memory.insert
    split_ifs with h1 h2
    · simp only [Memory.risingFrom, Bool.and_eq_true, decide_eq_true_eq]
      exact ⟨hl, h1 ▸ h.2⟩
    · simp only [Memory.risingFrom, Bool.and_eq_true, decide_eq_true_eq]
      exact ⟨hl, by omega, h.2⟩
    · simp only [Memory.risingFrom, Bool.and_eq_true, decide_eq_true_eq]
      exact ⟨h.1, ih (by omega) h.2⟩

theorem Memory.mem_erase {m : Memory} {a : Nat} {c : Host.Cell} (h : c ∈ m.erase a) : c ∈ m :=
  (List.mem_filter.mp h).1

theorem Memory.mem_insert {m : Memory} {a : Nat} {b : Byte} {c : Host.Cell} (h : c ∈ m.insert a b) : c = (a, b) ∨ c ∈ m := by
  induction m with
  | nil => exact .inl (by simpa [Memory.insert] using h)
  | cons d rest ih =>
    unfold Memory.insert at h
    split_ifs at h with h1 h2
    · rcases List.mem_cons.mp h with h | h
      · exact .inl h
      · exact .inr (List.mem_cons_of_mem _ h)
    · rcases List.mem_cons.mp h with h | h
      · exact .inl h
      · exact .inr h
    · rcases List.mem_cons.mp h with h | h
      · exact .inr (h ▸ List.mem_cons_self ..)
      · exact (ih h).imp id (List.mem_cons_of_mem _)

theorem Memory.wf_iff (m : Memory) :
    m.wf = true ↔ m.risingFrom 0 = true ∧ ∀ c ∈ m, c.1 < 2 ^ 32 ∧ c.2 ≠ Config.unwrittenByte := by
  simp [Memory.wf, List.all_eq_true]

@[simp] theorem Memory.wf_nil : Memory.wf [] = true := by decide

theorem Memory.wf_writeByte {m : Memory} (h : m.wf = true) (a : Word) (b : Byte) : (m.writeByte a b).wf = true := by
  rw [Memory.wf_iff] at h ⊢
  unfold Memory.writeByte
  split_ifs with hb
  · exact ⟨Memory.risingFrom_erase _ h.1, fun c hc => h.2 c (Memory.mem_erase hc)⟩
  · refine ⟨Memory.risingFrom_insert _ (Nat.zero_le _) h.1, fun c hc => ?_⟩
    rcases Memory.mem_insert hc with rfl | hc
    · exact ⟨a.isLt, hb⟩
    · exact h.2 c hc

theorem Memory.wf_writeWordLE {m : Memory} (h : m.wf = true) (a v : Word) : (m.writeWordLE a v).wf = true := by
  unfold Memory.writeWordLE
  exact Memory.wf_writeByte (Memory.wf_writeByte (Memory.wf_writeByte (Memory.wf_writeByte h _ _) _ _) _ _) _ _

theorem Memory.wf_memWrite1 {m : Memory} (h : m.wf = true) (a : Word) (v : Byte) : (MEM.memWrite1 m a v).wf = true :=
  Memory.wf_writeWordLE h _ _

theorem Memory.wf_memWrite2 {m : Memory} (h : m.wf = true) (a : Word) (v : Half) : (MEM.memWrite2 m a v).wf = true :=
  Memory.wf_writeWordLE h _ _

theorem Memory.wf_memWrite4 {m : Memory} (h : m.wf = true) (a v : Word) : (MEM.memWrite4 m a v).wf = true :=
  Memory.wf_writeWordLE h _ _

/-- A canonical list reads an address below its first one as unwritten. -/
theorem Memory.lookup_of_risingFrom {m : Memory} {l a : Nat} (h : m.risingFrom l = true) (ha : a < l) : m.lookup a = none := by
  induction m generalizing l with
  | nil => rfl
  | cons c rest ih =>
    simp only [Memory.risingFrom, Bool.and_eq_true, decide_eq_true_eq] at h
    have : c.1 ≠ a := by omega
    simp only [Memory.lookup, this, if_false]
    exact ih h.2 (by omega)

end Sys2Proof.Machine
end

