-- ==== Sys2Proof/Laws/Exec.lean ====
section
/-! SUPPORT. The equation of each instruction's meaning, the inversion lemma of `exec`, and the equations of the cycle and the step: proofs
cite these and unfold nothing. -/

namespace Sys2Proof.Machine

/-! ## What each instruction answers -/

section
variable (s : State)

theorem exec_sll (rd rt : RegIdx) (shamt : Nat) :
    exec (.sll rd rt shamt) s = .next (s.defaultNext.setReg rd (shiftLeft (s.reg rt) shamt)) := rfl

theorem exec_srl (rd rt : RegIdx) (shamt : Nat) :
    exec (.srl rd rt shamt) s = .next (s.defaultNext.setReg rd (shiftRightLogical (s.reg rt) shamt)) := rfl

theorem exec_sra (rd rt : RegIdx) (shamt : Nat) :
    exec (.sra rd rt shamt) s = .next (s.defaultNext.setReg rd (shiftRightArith (s.reg rt) shamt)) := rfl

theorem exec_sllv (rd rt rs : RegIdx) :
    exec (.sllv rd rt rs) s = .next (s.defaultNext.setReg rd (shiftLeft (s.reg rt) (shiftAmount (s.reg rs)))) := rfl

theorem exec_srlv (rd rt rs : RegIdx) :
    exec (.srlv rd rt rs) s = .next (s.defaultNext.setReg rd (shiftRightLogical (s.reg rt) (shiftAmount (s.reg rs)))) := rfl

theorem exec_srav (rd rt rs : RegIdx) :
    exec (.srav rd rt rs) s = .next (s.defaultNext.setReg rd (shiftRightArith (s.reg rt) (shiftAmount (s.reg rs)))) := rfl

theorem exec_jr (rs : RegIdx) :
    exec (.jr rs) s = .next (s.defaultNext.setPc (s.reg rs)) := rfl

theorem exec_jalr (rd rs : RegIdx) :
    exec (.jalr rd rs) s = .next ((s.defaultNext.setReg rd (linkValue s.pc)).setPc (s.reg rs)) := rfl

theorem exec_syscall :
    exec .syscall s = .next (if s.reg serviceReg = haltCode then s.defaultNext.clearRun else s.defaultNext) := rfl

theorem exec_mfhi (rd : RegIdx) :
    exec (.mfhi rd) s = .next (s.defaultNext.setReg rd s.hi) := rfl

theorem exec_mthi (rs : RegIdx) :
    exec (.mthi rs) s = .next (s.defaultNext.setHi (s.reg rs)) := rfl

theorem exec_mflo (rd : RegIdx) :
    exec (.mflo rd) s = .next (s.defaultNext.setReg rd s.lo) := rfl

theorem exec_mtlo (rs : RegIdx) :
    exec (.mtlo rs) s = .next (s.defaultNext.setLo (s.reg rs)) := rfl

theorem exec_mult (rs rt : RegIdx) :
    exec (.mult rs rt) s = .next (s.defaultNext.setHiLo (multiplySigned (s.reg rs) (s.reg rt))) := rfl

theorem exec_multu (rs rt : RegIdx) :
    exec (.multu rs rt) s = .next (s.defaultNext.setHiLo (multiplyUnsigned (s.reg rs) (s.reg rt))) := rfl

theorem exec_div (rs rt : RegIdx) :
    exec (.div rs rt) s = .next (s.defaultNext.setHiLo (divideSigned divPolicy (s.reg rs) (s.reg rt) s.hi s.lo)) := rfl

theorem exec_divu (rs rt : RegIdx) :
    exec (.divu rs rt) s = .next (s.defaultNext.setHiLo (divideUnsigned divPolicy (s.reg rs) (s.reg rt) s.hi s.lo)) := rfl

theorem exec_add (rd rs rt : RegIdx) :
    exec (.add rd rs rt) s = .next (s.defaultNext.setReg rd (s.reg rs + s.reg rt)) := rfl

theorem exec_addu (rd rs rt : RegIdx) :
    exec (.addu rd rs rt) s = .next (s.defaultNext.setReg rd (s.reg rs + s.reg rt)) := rfl

theorem exec_sub (rd rs rt : RegIdx) :
    exec (.sub rd rs rt) s = .next (s.defaultNext.setReg rd (s.reg rs - s.reg rt)) := rfl

theorem exec_subu (rd rs rt : RegIdx) :
    exec (.subu rd rs rt) s = .next (s.defaultNext.setReg rd (s.reg rs - s.reg rt)) := rfl

theorem exec_and (rd rs rt : RegIdx) :
    exec (.and rd rs rt) s = .next (s.defaultNext.setReg rd (s.reg rs &&& s.reg rt)) := rfl

theorem exec_or (rd rs rt : RegIdx) :
    exec (.or rd rs rt) s = .next (s.defaultNext.setReg rd (s.reg rs ||| s.reg rt)) := rfl

theorem exec_xor (rd rs rt : RegIdx) :
    exec (.xor rd rs rt) s = .next (s.defaultNext.setReg rd (s.reg rs ^^^ s.reg rt)) := rfl

theorem exec_nor (rd rs rt : RegIdx) :
    exec (.nor rd rs rt) s = .next (s.defaultNext.setReg rd (~~~(s.reg rs ||| s.reg rt))) := rfl

theorem exec_slt (rd rs rt : RegIdx) :
    exec (.slt rd rs rt) s = .next (s.defaultNext.setReg rd (boolWord (lessSigned (s.reg rs) (s.reg rt)))) := rfl

theorem exec_sltu (rd rs rt : RegIdx) :
    exec (.sltu rd rs rt) s = .next (s.defaultNext.setReg rd (boolWord (lessUnsigned (s.reg rs) (s.reg rt)))) := rfl

theorem exec_bltz (rs : RegIdx) (imm : Half) :
    exec (.bltz rs imm) s = .next (s.defaultNext.branchIf (isNegative (s.reg rs)) s.pc imm) := rfl

theorem exec_bgez (rs : RegIdx) (imm : Half) :
    exec (.bgez rs imm) s = .next (s.defaultNext.branchIf (!isNegative (s.reg rs)) s.pc imm) := rfl

theorem exec_bltzal (rs : RegIdx) (imm : Half) :
    exec (.bltzal rs imm) s = .next ((s.defaultNext.setReg linkReg (linkValue s.pc)).branchIf (isNegative (s.reg rs)) s.pc imm) := rfl

theorem exec_bgezal (rs : RegIdx) (imm : Half) :
    exec (.bgezal rs imm) s = .next ((s.defaultNext.setReg linkReg (linkValue s.pc)).branchIf (!isNegative (s.reg rs)) s.pc imm) := rfl

theorem exec_j (tgt26 : BitVec 26) :
    exec (.j tgt26) s = .next (s.defaultNext.setPc (jumpDest s.pc tgt26)) := rfl

theorem exec_jal (tgt26 : BitVec 26) :
    exec (.jal tgt26) s = .next ((s.defaultNext.setReg linkReg (linkValue s.pc)).setPc (jumpDest s.pc tgt26)) := rfl

theorem exec_beq (rs rt : RegIdx) (imm : Half) :
    exec (.beq rs rt imm) s = .next (s.defaultNext.branchIf (s.reg rs == s.reg rt) s.pc imm) := rfl

theorem exec_bne (rs rt : RegIdx) (imm : Half) :
    exec (.bne rs rt imm) s = .next (s.defaultNext.branchIf (s.reg rs != s.reg rt) s.pc imm) := rfl

theorem exec_blez (rs : RegIdx) (imm : Half) :
    exec (.blez rs imm) s = .next (s.defaultNext.branchIf (isNonPositive (s.reg rs)) s.pc imm) := rfl

theorem exec_bgtz (rs : RegIdx) (imm : Half) :
    exec (.bgtz rs imm) s = .next (s.defaultNext.branchIf (!isNonPositive (s.reg rs)) s.pc imm) := rfl

theorem exec_addi (rt rs : RegIdx) (imm : Half) :
    exec (.addi rt rs imm) s = .next (s.defaultNext.setReg rt (s.reg rs + extendedImm imm)) := rfl

theorem exec_addiu (rt rs : RegIdx) (imm : Half) :
    exec (.addiu rt rs imm) s = .next (s.defaultNext.setReg rt (s.reg rs + extendedImm imm)) := rfl

theorem exec_slti (rt rs : RegIdx) (imm : Half) :
    exec (.slti rt rs imm) s = .next (s.defaultNext.setReg rt (boolWord (lessSigned (s.reg rs) (extendedImm imm)))) := rfl

theorem exec_sltiu (rt rs : RegIdx) (imm : Half) :
    exec (.sltiu rt rs imm) s = .next (s.defaultNext.setReg rt (boolWord (lessUnsigned (s.reg rs) (extendedImm imm)))) := rfl

theorem exec_andi (rt rs : RegIdx) (imm : Half) :
    exec (.andi rt rs imm) s = .next (s.defaultNext.setReg rt (s.reg rs &&& extendedImm imm)) := rfl

theorem exec_ori (rt rs : RegIdx) (imm : Half) :
    exec (.ori rt rs imm) s = .next (s.defaultNext.setReg rt (s.reg rs ||| extendedImm imm)) := rfl

theorem exec_xori (rt rs : RegIdx) (imm : Half) :
    exec (.xori rt rs imm) s = .next (s.defaultNext.setReg rt (s.reg rs ^^^ extendedImm imm)) := rfl

theorem exec_lui (rt : RegIdx) (imm : Half) :
    exec (.lui rt imm) s = .next (s.defaultNext.setReg rt (luiValue imm)) := rfl

theorem exec_lb (rt : RegIdx) (imm : Half) (rs : RegIdx) :
    exec (.lb rt imm rs) s = .next (s.defaultNext.setReg rt (sext8 (MEM.memRead1 s.mem (effAddr s rs imm)))) := rfl

theorem exec_lh (rt : RegIdx) (imm : Half) (rs : RegIdx) :
    exec (.lh rt imm rs) s = .next (s.defaultNext.setReg rt (sext16 (MEM.memRead2 s.mem (effAddr s rs imm)))) := rfl

theorem exec_lw (rt : RegIdx) (imm : Half) (rs : RegIdx) :
    exec (.lw rt imm rs) s = .next (s.defaultNext.setReg rt (MEM.memRead4 s.mem (effAddr s rs imm))) := rfl

theorem exec_lbu (rt : RegIdx) (imm : Half) (rs : RegIdx) :
    exec (.lbu rt imm rs) s = .next (s.defaultNext.setReg rt (zext8 (MEM.memRead1 s.mem (effAddr s rs imm)))) := rfl

theorem exec_lhu (rt : RegIdx) (imm : Half) (rs : RegIdx) :
    exec (.lhu rt imm rs) s = .next (s.defaultNext.setReg rt (zext16 (MEM.memRead2 s.mem (effAddr s rs imm)))) := rfl

theorem exec_sb (rt : RegIdx) (imm : Half) (rs : RegIdx) :
    exec (.sb rt imm rs) s = .next (s.defaultNext.store1 MEM (effAddr s rs imm) ((s.reg rt).extractLsb' 0 8)) := rfl

theorem exec_sh (rt : RegIdx) (imm : Half) (rs : RegIdx) :
    exec (.sh rt imm rs) s = .next (s.defaultNext.store2 MEM (effAddr s rs imm) ((s.reg rt).extractLsb' 0 16)) := rfl

theorem exec_sw (rt : RegIdx) (imm : Half) (rs : RegIdx) :
    exec (.sw rt imm rs) s = .next (s.defaultNext.store4 MEM (effAddr s rs imm) (s.reg rt)) := rfl

end

/-! ## The core over any memory -/

section
variable {μ ν : Type} (M : MemComponent μ)

/-- The machine that runs is the core at `MEM`. -/
theorem exec_eq_execOn (i : Instr) (s : State) : exec i s = execOn MEM i s := by
  cases i <;> rfl

theorem cycle_eq_cycleOn (s : State) : cycle s = cycleOn MEM s := by
  unfold cycle cycleOn State.fetchWord
  cases decode (s.fetchFrom MEM) with
  | instr i => exact exec_eq_execOn i s
  | unassigned u => rfl

theorem step_eq_stepOn (s : State) : step s = stepOn MEM s := by
  simp only [step, stepOn, cycle_eq_cycleOn]

/-- `execOn` always answers a next state; its memory is the old contents or one `write_word` of them; RUN is as it was or clear. -/
theorem execOn_next (i : Instr) (s : State μ) :
    ∃ t, execOn M i s = .next t ∧ (t.mem = s.mem ∨ ∃ a v, t.mem = M.writeWord s.mem a v) ∧ (t.run = s.run ∨ t.run = false) := by
  cases i
  case syscall =>
    refine ⟨_, rfl, .inl ?_, ?_⟩ <;> split <;> simp
  case sb => exact ⟨_, rfl, .inr ⟨_, _, rfl⟩, .inl rfl⟩
  case sh => exact ⟨_, rfl, .inr ⟨_, _, rfl⟩, .inl rfl⟩
  case sw => exact ⟨_, rfl, .inr ⟨_, _, rfl⟩, .inl rfl⟩
  all_goals exact ⟨_, rfl, .inl (by simp), .inl (by simp)⟩

theorem cycleOn_of_instr {s : State μ} {i : Instr} (h : decode (s.fetchFrom M) = .instr i) : cycleOn M s = execOn M i s := by
  simp only [cycleOn, h]

theorem cycleOn_of_unassigned {s : State μ} {u : Unassigned} (h : decode (s.fetchFrom M) = .unassigned u) :
    cycleOn M s = .next s.defaultNext := by
  simp only [cycleOn, h, execUnassigned]

end

/-! ## What any instruction answers -/

/-- `execOn_next` of the machine that runs. -/
theorem exec_next (i : Instr) (s : State) :
    ∃ t, exec i s = .next t ∧ (t.mem = s.mem ∨ ∃ a v, t.mem = MEM.writeWord s.mem a v) ∧ (t.run = s.run ∨ t.run = false) := by
  rw [exec_eq_execOn]
  exact execOn_next MEM i s

/-! ## The cycle and the step -/

theorem cycle_of_instr {s : State} {i : Instr} (h : decode s.fetchWord = .instr i) : cycle s = exec i s := by
  simp only [cycle, h]

theorem cycle_of_unassigned {s : State} {u : Unassigned} (h : decode s.fetchWord = .unassigned u) :
    cycle s = .next s.defaultNext := by
  simp only [cycle, h, execUnassigned]

theorem step_of_run {s : State} (h : s.run = true) : step s = cycle s := by
  simp only [step, h, if_true]

theorem step_of_halted {s : State} (h : s.run = false) : step s = .refused .halted := by
  simp [step, h]

theorem run_of_step_next {s t : State} (h : step s = .next t) : s.run = true := by
  by_contra hr
  rw [step_of_halted (by simpa using hr)] at h
  cases h

end Sys2Proof.Machine
end

