-- ==== Sys2Proof/Laws/Operands.lean ====
section
/-! SUPPORT. What each shared operation computes, in numbers, and the frame of each shape of next state: proofs cite these and do not
unfold the operations. -/

namespace Sys2Proof.Machine

/-! ## Extensions and addresses -/

theorem extendedImm_toInt (imm : Half) : (extendedImm imm).toInt = imm.toInt :=
  BitVec.toInt_signExtend_of_le (by omega)

theorem extendedImm_eq_ofInt (imm : Half) : extendedImm imm = BitVec.ofInt 32 imm.toInt :=
  BitVec.eq_of_toInt_eq (by rw [extendedImm_toInt, BitVec.toInt_ofInt]; have := imm.toInt_lt; have := imm.le_toInt; rw [Int.bmod_eq_of_le] <;> norm_num at * <;> omega)

/-- A taken branch's destination as a number, modulo 2^32. -/
theorem branchDest_eq (pc : Word) (imm : Half) : branchDest pc imm = branchTarget pc imm := by
  apply BitVec.eq_of_toNat_eq
  have h0 := BitVec.toInt_lt (x := imm)
  have h1 := BitVec.le_toInt (x := imm)
  norm_num at h0 h1
  have e : ((extendedImm imm).toNat : Int) = imm.toInt % 2 ^ 32 := by
    simp only [extendedImm, sext16, BitVec.signExtend, BitVec.toNat_ofInt]; omega
  have : ((branchOffset imm).toNat : Int) = (4 * imm.toInt) % 2 ^ 32 := by
    simp only [branchOffset, BitVec.toNat_shiftLeft, Nat.shiftLeft_eq]; push_cast; rw [e]; omega
  have hp := pc.isLt
  simp only [branchDest, branchTarget, BitVec.toNat_add, BitVec.toNat_ofInt]
  zify
  rw [Int.toNat_of_nonneg (by omega)]
  push_cast
  rw [this]
  simp

theorem jumpTarget_toNat (tgt26 : BitVec 26) : (jumpTarget tgt26).toNat = tgt26.toNat * 4 := by
  have := tgt26.isLt
  simp [jumpTarget, Nat.shiftLeft_eq]
  omega

/-! ## Shifts, halves, comparisons -/

theorem shiftAmount_eq (v : Word) : shiftAmount v = v.toNat % 32 := by
  simp [shiftAmount]

theorem splitHiLo_append (p : BitVec 64) : ((splitHiLo p).1 ++ (splitHiLo p).2 : BitVec 64) = p := by
  apply BitVec.eq_of_getLsbD_eq
  intro i hi
  simp only [splitHiLo, BitVec.getLsbD_append, BitVec.getLsbD_extractLsb']
  by_cases h : i < 32
  · simp [h]
  · simp [h, show i - 32 < 32 by omega]; congr 1; omega

theorem isNegative_eq (v : Word) : isNegative v = v.msb := by
  simp only [isNegative, BitVec.msb_eq_decide, BitVec.toInt_eq_toNat_cond]
  have := v.isLt
  split_ifs <;> simp <;> omega

theorem isNonPositive_iff (v : Word) : isNonPositive v = true ↔ v.msb = true ∨ v = 0 := by
  simp only [isNonPositive, decide_eq_true_eq, BitVec.msb_eq_decide, BitVec.toInt_eq_toNat_cond]
  have := v.isLt
  rw [← BitVec.toNat_inj]
  split_ifs <;> simp <;> omega

/-! ## The shapes of next states -/

section
variable (s : State)

theorem writesReg_of (rd : RegIdx) {v : Word} {P : Word → Prop} (h : P v) : WritesReg s rd P (s.defaultNext.setReg rd v) :=
  ⟨by simpa using h, fun r hr => by simp [State.reg_setReg_ne _ hr], ⟨rfl, rfl⟩, rfl, fun _ => rfl, rfl⟩

theorem writesHiLo_of {p : Word × Word} {P : Word → Word → Prop} (h : P p.1 p.2) : WritesHiLo s P (s.defaultNext.setHiLo p) :=
  ⟨h, fun _ => rfl, rfl, fun _ => rfl, rfl⟩

theorem setsPc_of (dest : Word) : SetsPc s dest (s.defaultNext.setPc dest) :=
  ⟨rfl, fun _ => rfl, ⟨rfl, rfl⟩, rfl, fun _ => rfl⟩

theorem setsPc_branchIf (taken : Bool) (imm : Half) :
    SetsPc s (if taken then branchDest s.pc imm else s.pc + 4) (s.defaultNext.branchIf taken s.pc imm) :=
  ⟨by simp, fun _ => by simp, ⟨by simp, by simp⟩, by simp, fun _ => by simp⟩

theorem setsPcAndLinks_of (link : RegIdx) (dest : Word) :
    SetsPcAndLinks s link dest ((s.defaultNext.setReg link (linkValue s.pc)).setPc dest) :=
  ⟨rfl, by simp [linkValue], fun r hr => by simp [State.reg_setReg_ne _ hr], ⟨rfl, rfl⟩, rfl, fun _ => rfl⟩

theorem setsPcAndLinks_branchIf (link : RegIdx) (taken : Bool) (imm : Half) :
    SetsPcAndLinks s link (if taken then branchDest s.pc imm else s.pc + 4)
      ((s.defaultNext.setReg link (linkValue s.pc)).branchIf taken s.pc imm) :=
  ⟨by simp, by simp [linkValue], fun r hr => by simp [State.reg_setReg_ne _ hr], ⟨by simp, by simp⟩, by simp, fun _ => by simp⟩

theorem writesRegOn_of {μ : Type} (s : State μ) (rd : RegIdx) {v : Word} {P : Word → Prop} (h : P v) :
    WritesRegOn s rd P (s.defaultNext.setReg rd v) :=
  ⟨by simpa using h, fun r hr => by simp [State.reg_setReg_ne _ hr], ⟨rfl, rfl⟩, rfl, rfl, rfl⟩

theorem writesMemory_of {μ : Type} (s : State μ) (m : μ) : WritesMemory s m { s.defaultNext with mem := m } :=
  ⟨rfl, fun _ => rfl, ⟨rfl, rfl⟩, rfl, rfl⟩

end

end Sys2Proof.Machine
end

