-- ==== Sys2Proof/Laws/PerInstr.lean ====
section
/-! SUPPORT. Families of statements about the syntax, one lemma for each instruction. -/

namespace Sys2Proof.Laws.FixedBits

/-- The encoder writes the fixed bits of the instruction's row of spec/opcode_table.json. -/
def Statement (i : Instr) : Prop := encode i &&& i.rowMask = i.rowMatch

theorem rType_masked (op : BitVec 6) (rs rt rd : RegIdx) (shamt : Nat) (funct : BitVec 6) :
    rType op rs rt rd shamt funct &&& 0xFC00003F = rType op 0 0 0 0 funct := by
  have hm : (0xFC00003F : Word) = ((BitVec.allOnes 6 ++ 0#5 ++ 0#5 ++ 0#5 ++ 0#5 ++ BitVec.allOnes 6) : BitVec (6 + 5 + 5 + 5 + 5 + 6)) := by decide
  rw [hm]
  change ((op ++ fieldOfReg rs ++ fieldOfReg rt ++ fieldOfReg rd ++ BitVec.ofNat 5 shamt ++ funct) : BitVec (6 + 5 + 5 + 5 + 5 + 6)) &&& ((BitVec.allOnes 6 ++ 0#5 ++ 0#5 ++ 0#5 ++ 0#5 ++ BitVec.allOnes 6) : BitVec (6 + 5 + 5 + 5 + 5 + 6)) = _
  simp only [BitVec.and_append, BitVec.and_allOnes, BitVec.and_zero]
  rfl

theorem iType_masked (op : BitVec 6) (rs rt : RegIdx) (imm : Half) : iType op rs rt imm &&& 0xFC000000 = iType op 0 0 0 := by
  have hm : (0xFC000000 : Word) = ((BitVec.allOnes 6 ++ 0#5 ++ 0#5 ++ 0#16) : BitVec (6 + 5 + 5 + 16)) := by decide
  rw [hm]
  change ((op ++ fieldOfReg rs ++ fieldOfReg rt ++ imm) : BitVec (6 + 5 + 5 + 16)) &&& ((BitVec.allOnes 6 ++ 0#5 ++ 0#5 ++ 0#16) : BitVec (6 + 5 + 5 + 16)) = _
  simp only [BitVec.and_append, BitVec.and_allOnes, BitVec.and_zero]
  rfl

theorem iType_masked_rt (op : BitVec 6) (rs rt : RegIdx) (imm : Half) : iType op rs rt imm &&& 0xFC1F0000 = iType op 0 rt 0 := by
  have hm : (0xFC1F0000 : Word) = ((BitVec.allOnes 6 ++ 0#5 ++ BitVec.allOnes 5 ++ 0#16) : BitVec (6 + 5 + 5 + 16)) := by decide
  rw [hm]
  change ((op ++ fieldOfReg rs ++ fieldOfReg rt ++ imm) : BitVec (6 + 5 + 5 + 16)) &&& ((BitVec.allOnes 6 ++ 0#5 ++ BitVec.allOnes 5 ++ 0#16) : BitVec (6 + 5 + 5 + 16)) = _
  simp only [BitVec.and_append, BitVec.and_allOnes, BitVec.and_zero]
  rfl

theorem jType_masked (op : BitVec 6) (tgt26 : BitVec 26) : jType op tgt26 &&& 0xFC000000 = jType op 0 := by
  have hm : (0xFC000000 : Word) = ((BitVec.allOnes 6 ++ 0#26) : BitVec (6 + 26)) := by decide
  rw [hm]
  change ((op ++ tgt26) : BitVec (6 + 26)) &&& ((BitVec.allOnes 6 ++ 0#26) : BitVec (6 + 26)) = _
  simp only [BitVec.and_append, BitVec.and_allOnes, BitVec.and_zero]
  rfl

theorem sll (rd rt : RegIdx) (shamt : Nat) : Statement (.sll rd rt shamt) := rType_masked ..
theorem srl (rd rt : RegIdx) (shamt : Nat) : Statement (.srl rd rt shamt) := rType_masked ..
theorem sra (rd rt : RegIdx) (shamt : Nat) : Statement (.sra rd rt shamt) := rType_masked ..
theorem sllv (rd rt rs : RegIdx) : Statement (.sllv rd rt rs) := rType_masked ..
theorem srlv (rd rt rs : RegIdx) : Statement (.srlv rd rt rs) := rType_masked ..
theorem srav (rd rt rs : RegIdx) : Statement (.srav rd rt rs) := rType_masked ..
theorem jr (rs : RegIdx) : Statement (.jr rs) := rType_masked ..
theorem jalr (rd rs : RegIdx) : Statement (.jalr rd rs) := rType_masked ..
theorem syscall : Statement .syscall := rType_masked ..
theorem mfhi (rd : RegIdx) : Statement (.mfhi rd) := rType_masked ..
theorem mthi (rs : RegIdx) : Statement (.mthi rs) := rType_masked ..
theorem mflo (rd : RegIdx) : Statement (.mflo rd) := rType_masked ..
theorem mtlo (rs : RegIdx) : Statement (.mtlo rs) := rType_masked ..
theorem mult (rs rt : RegIdx) : Statement (.mult rs rt) := rType_masked ..
theorem multu (rs rt : RegIdx) : Statement (.multu rs rt) := rType_masked ..
theorem div (rs rt : RegIdx) : Statement (.div rs rt) := rType_masked ..
theorem divu (rs rt : RegIdx) : Statement (.divu rs rt) := rType_masked ..
theorem add (rd rs rt : RegIdx) : Statement (.add rd rs rt) := rType_masked ..
theorem addu (rd rs rt : RegIdx) : Statement (.addu rd rs rt) := rType_masked ..
theorem sub (rd rs rt : RegIdx) : Statement (.sub rd rs rt) := rType_masked ..
theorem subu (rd rs rt : RegIdx) : Statement (.subu rd rs rt) := rType_masked ..
theorem and (rd rs rt : RegIdx) : Statement (.and rd rs rt) := rType_masked ..
theorem or (rd rs rt : RegIdx) : Statement (.or rd rs rt) := rType_masked ..
theorem xor (rd rs rt : RegIdx) : Statement (.xor rd rs rt) := rType_masked ..
theorem nor (rd rs rt : RegIdx) : Statement (.nor rd rs rt) := rType_masked ..
theorem slt (rd rs rt : RegIdx) : Statement (.slt rd rs rt) := rType_masked ..
theorem sltu (rd rs rt : RegIdx) : Statement (.sltu rd rs rt) := rType_masked ..
theorem bltz (rs : RegIdx) (imm : Half) : Statement (.bltz rs imm) := iType_masked_rt ..
theorem bgez (rs : RegIdx) (imm : Half) : Statement (.bgez rs imm) := iType_masked_rt ..
theorem bltzal (rs : RegIdx) (imm : Half) : Statement (.bltzal rs imm) := iType_masked_rt ..
theorem bgezal (rs : RegIdx) (imm : Half) : Statement (.bgezal rs imm) := iType_masked_rt ..
theorem j (tgt26 : BitVec 26) : Statement (.j tgt26) := jType_masked ..
theorem jal (tgt26 : BitVec 26) : Statement (.jal tgt26) := jType_masked ..
theorem beq (rs rt : RegIdx) (imm : Half) : Statement (.beq rs rt imm) := iType_masked ..
theorem bne (rs rt : RegIdx) (imm : Half) : Statement (.bne rs rt imm) := iType_masked ..
theorem blez (rs : RegIdx) (imm : Half) : Statement (.blez rs imm) := iType_masked ..
theorem bgtz (rs : RegIdx) (imm : Half) : Statement (.bgtz rs imm) := iType_masked ..
theorem addi (rt rs : RegIdx) (imm : Half) : Statement (.addi rt rs imm) := iType_masked ..
theorem addiu (rt rs : RegIdx) (imm : Half) : Statement (.addiu rt rs imm) := iType_masked ..
theorem slti (rt rs : RegIdx) (imm : Half) : Statement (.slti rt rs imm) := iType_masked ..
theorem sltiu (rt rs : RegIdx) (imm : Half) : Statement (.sltiu rt rs imm) := iType_masked ..
theorem andi (rt rs : RegIdx) (imm : Half) : Statement (.andi rt rs imm) := iType_masked ..
theorem ori (rt rs : RegIdx) (imm : Half) : Statement (.ori rt rs imm) := iType_masked ..
theorem xori (rt rs : RegIdx) (imm : Half) : Statement (.xori rt rs imm) := iType_masked ..
theorem lui (rt : RegIdx) (imm : Half) : Statement (.lui rt imm) := iType_masked ..
theorem lb (rt : RegIdx) (imm : Half) (rs : RegIdx) : Statement (.lb rt imm rs) := iType_masked ..
theorem lh (rt : RegIdx) (imm : Half) (rs : RegIdx) : Statement (.lh rt imm rs) := iType_masked ..
theorem lw (rt : RegIdx) (imm : Half) (rs : RegIdx) : Statement (.lw rt imm rs) := iType_masked ..
theorem lbu (rt : RegIdx) (imm : Half) (rs : RegIdx) : Statement (.lbu rt imm rs) := iType_masked ..
theorem lhu (rt : RegIdx) (imm : Half) (rs : RegIdx) : Statement (.lhu rt imm rs) := iType_masked ..
theorem sb (rt : RegIdx) (imm : Half) (rs : RegIdx) : Statement (.sb rt imm rs) := iType_masked ..
theorem sh (rt : RegIdx) (imm : Half) (rs : RegIdx) : Statement (.sh rt imm rs) := iType_masked ..
theorem sw (rt : RegIdx) (imm : Half) (rs : RegIdx) : Statement (.sw rt imm rs) := iType_masked ..

end Sys2Proof.Laws.FixedBits
end

