-- ==== Sys2Proof/Tests/Slice0.lean ====
section
/-! SUPPORT. Tests of one step or one decoding each, and for each statement that has hypotheses a witness that meets them. Expected values are
from spec/95_test_vectors.md (V1: section 1, V2.n: section 2.n), from a rule's own example, or worked by hand where a comment says so;
the bits of a word in binary are written from the Encoding lines and the tables R62 to R64 of spec/30_encoding.md. -/

namespace Sys2Proof.Tests

open Sys2Proof.Machine

/-! ## Helpers -/

/-- The state at `pc` with some registers set and everything else as the vectors have it: 0. -/
def stateAt (pc : Word) (regs : List (RegIdx × Word)) : State :=
  regs.foldl (fun s p => s.setReg p.1 p.2) { State.reset with pc := pc }

/-- The vectors' state: PC = 0x00400000. -/
def stateOf (regs : List (RegIdx × Word)) : State := stateAt 0x00400000 regs

/-- Some words placed in memory. -/
def withWords (s : State) (words : List (Word × Word)) : State :=
  words.foldl (fun s p => { s with mem := MEM.writeWord s.mem p.1 p.2 }) s

/-- One step with a word at the PC, seen through `f`. -/
def see {α : Type} (f : State → α) (s : State) (w : Nat) : Option α :=
  match step (s.withFetchWord 32 w) with
  | .next t => some (f t)
  | .fault _ => none
  | .refused _ => none

def seeReg (s : State) (w : Nat) (r : RegIdx) : Option Word := see (fun t => t.reg r) s w
def seePc (s : State) (w : Nat) : Option Word := see State.pc s w
def seeHiLo (s : State) (w : Nat) : Option (Word × Word) := see (fun t => (t.hi, t.lo)) s w
def seeWord (s : State) (w : Nat) (a : Word) : Option Word := see (fun t => MEM.readWord t.mem a) s w
/-- A linking instruction: the link in a register, and the PC. -/
def seeLink (s : State) (w : Nat) (r : RegIdx) : Option (Word × Word) := see (fun t => (t.reg r, t.pc)) s w

/-- A word with its row's fixed bits (the hypothesis of EncodedAs), and what it decodes to. -/
abbrev DecodesAs (w mask fixed : Word) (i : Instr) : Prop := w &&& mask = fixed ∧ decode w = .instr i

/-! ## Well-formedness: an ill-formed term for each check, refused; and the boundary of each check -/

theorem test_wf_sll : Instr.wf (.sll 8 9 32) = false ∧ Instr.wf (.sll 8 9 31) = true := by decide
theorem test_wf_srl : Instr.wf (.srl 8 9 32) = false ∧ Instr.wf (.srl 8 9 31) = true := by decide
theorem test_wf_sra : Instr.wf (.sra 8 9 33) = false ∧ Instr.wf (.sra 8 9 0) = true := by decide
/-- Another region, and a label that is no multiple of 4 (R68). -/
theorem test_jumpReaches : jumpReaches 0x00400000 0x10000000 = false ∧ jumpReaches 0x00400000 0x00400102 = false ∧
    jumpReaches 0x00400000 0x0FFFFFFC = true := by decide
/-- Displacements 131072, -131076 and 2 are refused, 131068 and -131072 are not (R59). -/
theorem test_branchReaches : branchReaches 0x00400000 0x00420004 = false ∧ branchReaches 0x00400000 0x003E0000 = false ∧
    branchReaches 0x00400000 0x00400006 = false ∧ branchReaches 0x00400000 0x00420000 = true ∧
    branchReaches 0x00400000 0x003E0004 = true := by decide

/-! ## Decoding: a word for every constructor, written field by field -/

theorem test_decode_sll : DecodesAs 0b000000_11111_01001_01000_00100_000000 0xFC00003F 0x00000000 (.sll 8 9 4) := by decide
theorem test_decode_srl : DecodesAs 0b000000_11111_01001_01000_00100_000010 0xFC00003F 0x00000002 (.srl 8 9 4) := by decide
theorem test_decode_sra : DecodesAs 0b000000_11111_01001_01000_00100_000011 0xFC00003F 0x00000003 (.sra 8 9 4) := by decide
theorem test_decode_sllv : DecodesAs 0b000000_01010_01001_01000_11111_000100 0xFC00003F 0x00000004 (.sllv 8 9 10) := by decide
theorem test_decode_srlv : DecodesAs 0b000000_01010_01001_01000_11111_000110 0xFC00003F 0x00000006 (.srlv 8 9 10) := by decide
theorem test_decode_srav : DecodesAs 0b000000_01010_01001_01000_11111_000111 0xFC00003F 0x00000007 (.srav 8 9 10) := by decide
theorem test_decode_jr : DecodesAs 0b000000_01001_11111_11111_11111_001000 0xFC00003F 0x00000008 (.jr 9) := by decide
theorem test_decode_jalr : DecodesAs 0b000000_01001_11111_01000_11111_001001 0xFC00003F 0x00000009 (.jalr 8 9) := by decide
theorem test_decode_syscall : DecodesAs 0b000000_11111_11111_11111_11111_001100 0xFC00003F 0x0000000C (.syscall) := by decide
theorem test_decode_mfhi : DecodesAs 0b000000_01001_01010_01000_00001_010000 0xFC00003F 0x00000010 (.mfhi 8) := by decide
theorem test_decode_mflo : DecodesAs 0b000000_01001_01010_01000_00001_010010 0xFC00003F 0x00000012 (.mflo 8) := by decide
theorem test_decode_mthi : DecodesAs 0b000000_01001_01010_01000_00001_010001 0xFC00003F 0x00000011 (.mthi 9) := by decide
theorem test_decode_mtlo : DecodesAs 0b000000_01001_01010_01000_00001_010011 0xFC00003F 0x00000013 (.mtlo 9) := by decide
theorem test_decode_mult : DecodesAs 0b000000_01001_01010_01000_00001_011000 0xFC00003F 0x00000018 (.mult 9 10) := by decide
theorem test_decode_multu : DecodesAs 0b000000_01001_01010_01000_00001_011001 0xFC00003F 0x00000019 (.multu 9 10) := by decide
theorem test_decode_div : DecodesAs 0b000000_01001_01010_01000_00001_011010 0xFC00003F 0x0000001A (.div 9 10) := by decide
theorem test_decode_divu : DecodesAs 0b000000_01001_01010_01000_00001_011011 0xFC00003F 0x0000001B (.divu 9 10) := by decide
theorem test_decode_add : DecodesAs 0b000000_01001_01010_01000_11111_100000 0xFC00003F 0x00000020 (.add 8 9 10) := by decide
theorem test_decode_addu : DecodesAs 0b000000_01001_01010_01000_11111_100001 0xFC00003F 0x00000021 (.addu 8 9 10) := by decide
theorem test_decode_sub : DecodesAs 0b000000_01001_01010_01000_11111_100010 0xFC00003F 0x00000022 (.sub 8 9 10) := by decide
theorem test_decode_subu : DecodesAs 0b000000_01001_01010_01000_11111_100011 0xFC00003F 0x00000023 (.subu 8 9 10) := by decide
theorem test_decode_and : DecodesAs 0b000000_01001_01010_01000_11111_100100 0xFC00003F 0x00000024 (.and 8 9 10) := by decide
theorem test_decode_or : DecodesAs 0b000000_01001_01010_01000_11111_100101 0xFC00003F 0x00000025 (.or 8 9 10) := by decide
theorem test_decode_xor : DecodesAs 0b000000_01001_01010_01000_11111_100110 0xFC00003F 0x00000026 (.xor 8 9 10) := by decide
theorem test_decode_nor : DecodesAs 0b000000_01001_01010_01000_11111_100111 0xFC00003F 0x00000027 (.nor 8 9 10) := by decide
theorem test_decode_slt : DecodesAs 0b000000_01001_01010_01000_11111_101010 0xFC00003F 0x0000002A (.slt 8 9 10) := by decide
theorem test_decode_sltu : DecodesAs 0b000000_01001_01010_01000_11111_101011 0xFC00003F 0x0000002B (.sltu 8 9 10) := by decide
theorem test_decode_bltz : DecodesAs 0b000001_01001_00000_1111111111111100 0xFC1F0000 0x04000000 (.bltz 9 0xFFFC) := by decide
theorem test_decode_bgez : DecodesAs 0b000001_01001_00001_1111111111111100 0xFC1F0000 0x04010000 (.bgez 9 0xFFFC) := by decide
theorem test_decode_bltzal : DecodesAs 0b000001_01001_10000_1111111111111100 0xFC1F0000 0x04100000 (.bltzal 9 0xFFFC) := by decide
theorem test_decode_bgezal : DecodesAs 0b000001_01001_10001_1111111111111100 0xFC1F0000 0x04110000 (.bgezal 9 0xFFFC) := by decide
theorem test_decode_j : DecodesAs 0b000010_10000100000000000000000100 0xFC000000 0x08000000 (.j 0x2100004) := by decide
theorem test_decode_jal : DecodesAs 0b000011_10000100000000000000000100 0xFC000000 0x0C000000 (.jal 0x2100004) := by decide
theorem test_decode_beq : DecodesAs 0b000100_01001_01010_1000000000000001 0xFC000000 0x10000000 (.beq 9 10 0x8001) := by decide
theorem test_decode_bne : DecodesAs 0b000101_01001_01010_1000000000000001 0xFC000000 0x14000000 (.bne 9 10 0x8001) := by decide
theorem test_decode_blez : DecodesAs 0b000110_01001_01010_1000000000000001 0xFC000000 0x18000000 (.blez 9 0x8001) := by decide
theorem test_decode_bgtz : DecodesAs 0b000111_01001_01010_1000000000000001 0xFC000000 0x1C000000 (.bgtz 9 0x8001) := by decide
theorem test_decode_addi : DecodesAs 0b001000_01001_01000_1000000000000001 0xFC000000 0x20000000 (.addi 8 9 0x8001) := by decide
theorem test_decode_addiu : DecodesAs 0b001001_01001_01000_1000000000000001 0xFC000000 0x24000000 (.addiu 8 9 0x8001) := by decide
theorem test_decode_slti : DecodesAs 0b001010_01001_01000_1000000000000001 0xFC000000 0x28000000 (.slti 8 9 0x8001) := by decide
theorem test_decode_sltiu : DecodesAs 0b001011_01001_01000_1000000000000001 0xFC000000 0x2C000000 (.sltiu 8 9 0x8001) := by decide
theorem test_decode_andi : DecodesAs 0b001100_01001_01000_1000000000000001 0xFC000000 0x30000000 (.andi 8 9 0x8001) := by decide
theorem test_decode_ori : DecodesAs 0b001101_01001_01000_1000000000000001 0xFC000000 0x34000000 (.ori 8 9 0x8001) := by decide
theorem test_decode_xori : DecodesAs 0b001110_01001_01000_1000000000000001 0xFC000000 0x38000000 (.xori 8 9 0x8001) := by decide
theorem test_decode_lui : DecodesAs 0b001111_01001_01000_1000000000000001 0xFC000000 0x3C000000 (.lui 8 0x8001) := by decide
theorem test_decode_lb : DecodesAs 0b100000_01001_01000_1111111111111100 0xFC000000 0x80000000 (.lb 8 0xFFFC 9) := by decide
theorem test_decode_lh : DecodesAs 0b100001_01001_01000_1111111111111100 0xFC000000 0x84000000 (.lh 8 0xFFFC 9) := by decide
theorem test_decode_lw : DecodesAs 0b100011_01001_01000_1111111111111100 0xFC000000 0x8C000000 (.lw 8 0xFFFC 9) := by decide
theorem test_decode_lbu : DecodesAs 0b100100_01001_01000_1111111111111100 0xFC000000 0x90000000 (.lbu 8 0xFFFC 9) := by decide
theorem test_decode_lhu : DecodesAs 0b100101_01001_01000_1111111111111100 0xFC000000 0x94000000 (.lhu 8 0xFFFC 9) := by decide
theorem test_decode_sb : DecodesAs 0b101000_01001_01000_1111111111111100 0xFC000000 0xA0000000 (.sb 8 0xFFFC 9) := by decide
theorem test_decode_sh : DecodesAs 0b101001_01001_01000_1111111111111100 0xFC000000 0xA4000000 (.sh 8 0xFFFC 9) := by decide
theorem test_decode_sw : DecodesAs 0b101011_01001_01000_1111111111111100 0xFC000000 0xAC000000 (.sw 8 0xFFFC 9) := by decide

/-- The unassigned words of V2.11, with the reason its table gives. -/
theorem test_decode_unassigned :
    decode 0xFFFFFFFF = .unassigned (.opcode 0x3F) ∧ decode 0x0000000D = .unassigned (.funct 0x0D) ∧
    decode 0x0128403F = .unassigned (.funct 0x3F) ∧ decode 0x05220002 = .unassigned (.selector 0x02) ∧
    decode 0x053F0002 = .unassigned (.selector 0x1F) ∧ decode 0x42000018 = .unassigned (.opcode 0x10) ∧
    decode 0x89280000 = .unassigned (.opcode 0x22) ∧ decode 0xE1280000 = .unassigned (.opcode 0x38) := by decide

/-- Fewer than four bytes are no word (R55); a fifth is left over. The bytes of 0x20080005, lowest address first (R34). -/
theorem test_decodeBytes : decodeBytes [0x05, 0x00, 0x08] = .truncated ∧
    decodeBytes [0x05, 0x00, 0x08, 0x20, 0xAA] = .word (.instr (.addi 8 0 5)) [0xAA] := by decide

theorem test_decodeTableWord : decodeTableWord 32 0x20080005 = some (.addi 8 0 5) ∧ decodeTableWord 32 0xFFFFFFFF = none ∧
    decodeTableWord 32 0x0000000C = some .syscall := by decide

/-! ## Encoding: the words the vectors print -/

theorem test_encode_r : encode (.sll 8 9 31) = 0x000947C0 ∧ encode (.sllv 8 9 10) = 0x01494004 ∧ encode (.add 8 9 10) = 0x012A4020 ∧
    encode (.mult 9 10) = 0x012A0018 ∧ encode (.mthi 9) = 0x01200011 ∧ encode (.mflo 8) = 0x00004012 ∧
    encode (.jr 31) = 0x03E00008 ∧ encode (.jalr 31 9) = 0x0120F809 ∧ encode .syscall = 0x0000000C := by decide
theorem test_encode_i : encode (.addi 8 0 5) = 0x20080005 ∧ encode (.sltiu 8 9 0x8000) = 0x2D288000 ∧ encode (.lui 8 0xFFFF) = 0x3C08FFFF ∧
    encode (.bne 9 10 5) = 0x152A0005 ∧ encode (.blez 9 3) = 0x19200003 ∧ encode (.bltz 9 0xFFFC) = 0x0520FFFC ∧
    encode (.bgezal 31 2) = 0x07F10002 ∧ encode (.lw 8 0xFFFC 9) = 0x8D28FFFC ∧ encode (.sh 8 3 9) = 0xA5280003 := by decide
theorem test_encode_j : encode (.j 0x3FFFFFF) = 0x0BFFFFFF ∧ encode (.jal 0x0100040) = 0x0C100040 := by decide
/-- `imm = (label - (pc + 4)) >> 2`: the branch of program 1 and the JAL of S6 (V1). -/
theorem test_label_fields : branchField 0x00400010 0x00400008 = 0xFFFD ∧ jumpField 0x00400100 = 0x0100040 := by decide

/-! ## One step: register-register instructions (V2.1 to V2.5) -/

theorem test_sll_largest : seeReg (stateOf [(9, 0x00000003)]) 0x000947C0 8 = some 0x80000000 := by decide
theorem test_sll_writes_register_zero : seeReg (stateOf [(9, 0x00000005)]) 0x00090040 0 = some 0x0000000A := by decide
theorem test_srl_zero_fill : seeReg (stateOf [(9, 0x80000000)]) 0x000947C2 8 = some 0x00000001 := by decide
theorem test_sra_sign_fill : seeReg (stateOf [(9, 0x80000000)]) 0x000947C3 8 = some 0xFFFFFFFF := by decide
theorem test_sra_positive : seeReg (stateOf [(9, 0x7FFFFFFF)]) 0x000947C3 8 = some 0x00000000 := by decide
theorem test_sllv_amount_32 : seeReg (stateOf [(9, 0x00000001), (10, 0x00000020)]) 0x01494004 8 = some 0x00000001 := by decide
theorem test_sllv_same_registers : seeReg (stateOf [(9, 0x00000003)]) 0x01294804 9 = some 0x00000018 := by decide
theorem test_srlv_amount_36 : seeReg (stateOf [(9, 0xF0000000), (10, 0x00000024)]) 0x01494006 8 = some 0x0F000000 := by decide
theorem test_srav_negative : seeReg (stateOf [(9, 0xF0000000), (10, 0x00000004)]) 0x01494007 8 = some 0xFF000000 := by decide
theorem test_add_overflow : seeReg (stateOf [(9, 0x7FFFFFFF), (10, 0x7FFFFFFF)]) 0x012A4020 8 = some 0xFFFFFFFE := by decide
theorem test_add_writes_register_zero : seeReg (stateOf [(9, 0x00000002), (10, 0x00000003)]) 0x012A0020 0 = some 0x00000005 := by decide
theorem test_addu_reads_register_zero : seeReg (stateOf [(0, 0x00000005)]) 0x00004021 8 = some 0x0000000A := by decide
theorem test_sub_overflow : seeReg (stateOf [(9, 0x80000000), (10, 0x00000001)]) 0x012A4022 8 = some 0x7FFFFFFF := by decide
theorem test_subu_order : seeReg (stateOf [(9, 0x00000005), (10, 0x00000007)]) 0x012A4023 8 = some 0xFFFFFFFE := by decide
theorem test_and_mask : seeReg (stateOf [(9, 0x12345678), (10, 0xFFFFFFFF)]) 0x012A4024 8 = some 0x12345678 := by decide
theorem test_or_join : seeReg (stateOf [(9, 0x12340000), (10, 0x00005678)]) 0x012A4025 8 = some 0x12345678 := by decide
theorem test_xor_complement : seeReg (stateOf [(9, 0x12345678), (10, 0xFFFFFFFF)]) 0x012A4026 8 = some 0xEDCBA987 := by decide
theorem test_nor_not : seeReg (stateOf [(9, 0x12345678)]) 0x01204027 8 = some 0xEDCBA987 := by decide
theorem test_slt_sign_bits_differ : seeReg (stateOf [(9, 0x80000000), (10, 0x7FFFFFFF)]) 0x012A402A 8 = some 0x00000001 := by decide
theorem test_sltu_sign_bits_differ : seeReg (stateOf [(9, 0x80000000), (10, 0x7FFFFFFF)]) 0x012A402B 8 = some 0x00000000 := by decide
theorem test_sltu_zero_first : seeReg (stateOf [(9, 0x00000000), (10, 0x80000000)]) 0x012A402B 8 = some 0x00000001 := by decide
theorem test_mult_signed : seeHiLo (stateOf [(9, 0x80000000), (10, 0x00000002)]) 0x012A0018 = some (0xFFFFFFFF, 0x00000000) := by decide
theorem test_mult_mixed : seeHiLo (stateOf [(9, 0x12345678), (10, 0x9ABCDEF0)]) 0x012A0018 = some (0xF8CC93D6, 0x242D2080) := by decide
theorem test_multu_largest : seeHiLo (stateOf [(9, 0xFFFFFFFF), (10, 0xFFFFFFFF)]) 0x012A0019 = some (0xFFFFFFFE, 0x00000001) := by decide
theorem test_multu_mixed : seeHiLo (stateOf [(9, 0x12345678), (10, 0x9ABCDEF0)]) 0x012A0019 = some (0x0B00EA4E, 0x242D2080) := by decide

/-- The vectors' HI and LO, so that "unchanged" is visible. -/
def withHiLo (s : State) : State := (s.setHi 0x11111111).setLo 0x22222222

theorem test_div_truncates : seeHiLo (withHiLo (stateOf [(9, 0x00000007), (10, 0xFFFFFFFE)])) 0x012A001A = some (0x00000001, 0xFFFFFFFD) ∧
    seeHiLo (withHiLo (stateOf [(9, 0xFFFFFFF9), (10, 0x00000002)])) 0x012A001A = some (0xFFFFFFFF, 0xFFFFFFFD) := by decide
/-- The three clauses of SignedDivideResults at their boundaries: divisor 0; -2^31 / -1; and the two neighbours of that overflow. -/
theorem test_div_clauses : seeHiLo (withHiLo (stateOf [(9, 0x00000005), (10, 0x00000000)])) 0x012A001A = some (0x11111111, 0x22222222) ∧
    seeHiLo (withHiLo (stateOf [(9, 0x80000000), (10, 0xFFFFFFFF)])) 0x012A001A = some (0x00000000, 0x80000000) ∧
    seeHiLo (withHiLo (stateOf [(9, 0x80000000), (10, 0x00000001)])) 0x012A001A = some (0x00000000, 0x80000000) ∧
    seeHiLo (withHiLo (stateOf [(9, 0x7FFFFFFF), (10, 0xFFFFFFFF)])) 0x012A001A = some (0x00000000, 0x80000001) := by decide
/-- The two clauses of UnsignedDivideResults. -/
theorem test_divu_clauses : seeHiLo (withHiLo (stateOf [(9, 0x00000000), (10, 0x00000000)])) 0x012A001B = some (0x11111111, 0x22222222) ∧
    seeHiLo (withHiLo (stateOf [(9, 0xFFFFFFF9), (10, 0x00000002)])) 0x012A001B = some (0x00000001, 0x7FFFFFFC) ∧
    seeHiLo (withHiLo (stateOf [(9, 0x80000000), (10, 0xFFFFFFFF)])) 0x012A001B = some (0x80000000, 0x00000000) := by decide
theorem test_mfhi : seeReg (withHiLo (stateOf [])) 0x00004010 8 = some 0x11111111 := by decide
theorem test_mflo : seeReg (withHiLo (stateOf [])) 0x00004012 8 = some 0x22222222 := by decide
theorem test_mthi : seeHiLo (withHiLo (stateOf [(9, 0xCAFEBABE)])) 0x01200011 = some (0xCAFEBABE, 0x22222222) := by decide
theorem test_mtlo : seeHiLo (withHiLo (stateOf [(9, 0xCAFEBABE)])) 0x01200013 = some (0x11111111, 0xCAFEBABE) := by decide

/-! ## One step: immediates (V2.6, S7) -/

theorem test_addi_scenario : seeReg (stateOf []) 0x20080005 8 = some 0x00000005 := by decide
theorem test_addi_most_negative : seeReg (stateOf [(9, 0x00000000)]) 0x21288000 8 = some 0xFFFF8000 := by decide
theorem test_addiu_sign_extends : seeReg (stateOf [(9, 0x00000000)]) 0x2528FFFF 8 = some 0xFFFFFFFF := by decide
theorem test_slti_sign_extends : seeReg (stateOf [(9, 0x00000000)]) 0x29288000 8 = some 0x00000000 := by decide
theorem test_slti_signed : seeReg (stateOf [(9, 0x80000000)]) 0x29280000 8 = some 0x00000001 := by decide
theorem test_sltiu_below : seeReg (stateOf [(9, 0xFFFF7FFF)]) 0x2D288000 8 = some 0x00000001 := by decide
theorem test_sltiu_equal : seeReg (stateOf [(9, 0xFFFF8000)]) 0x2D288000 8 = some 0x00000000 := by decide
theorem test_andi_sign_extends : seeReg (stateOf [(9, 0x12345678)]) 0x3128FF00 8 = some 0x12345600 := by decide
theorem test_ori_sign_extends : seeReg (stateOf [(9, 0x12340000)]) 0x35288765 8 = some 0xFFFF8765 := by decide
theorem test_xori_sign_extends : seeReg (stateOf [(9, 0x00000000)]) 0x3928FFFF 8 = some 0xFFFFFFFF := by decide
theorem test_lui_ignores_rs : seeReg (stateOf [(9, 0xFFFFFFFF)]) 0x3D288001 8 = some 0x80010000 := by decide

/-! ## One step: jumps and branches (V2.7, V2.8, S5, S6) -/

theorem test_j_region_of_current_pc : seePc (stateAt 0x0FFFFFFC []) 0x08000000 = some 0x00000000 := by decide
theorem test_j_region_f : seePc (stateAt 0xFFFFFFFC []) 0x08000001 = some 0xF0000004 := by decide
theorem test_jal_link : seeLink (stateOf []) 0x0C100040 31 = some (0x00400004, 0x00400100) := by decide
theorem test_jal_link_wraps : seeLink (stateAt 0xFFFFFFFC []) 0x0C000004 31 = some (0x00000000, 0xF0000010) := by decide
theorem test_jr_misaligned : seePc (stateOf [(9, 0x00400002)]) 0x01200008 = some 0x00400002 := by decide
theorem test_jalr_same_register : seeLink (stateOf [(9, 0x00001000)]) 0x01204809 9 = some (0x00400004, 0x00001000) := by decide
theorem test_jalr_register_zero : seeLink (stateOf [(9, 0x00001000)]) 0x01200009 0 = some (0x00400004, 0x00001000) := by decide
theorem test_beq_backwards : seePc (stateOf []) 0x11298000 = some 0x003E0004 := by decide
theorem test_beq_not_taken : seePc (stateOf [(9, 0x80000000), (10, 0x00000000)]) 0x112A0001 = some 0x00400004 := by decide
theorem test_bne_taken : seePc (stateOf [(9, 0x00000007), (10, 0xFFFFFFF9)]) 0x152A0005 = some 0x00400018 := by decide
theorem test_bne_not_taken : seePc (stateOf [(9, 0x00000007)]) 0x15290005 = some 0x00400004 := by decide
theorem test_blez_zero : seePc (stateOf []) 0x19200003 = some 0x00400010 := by decide
theorem test_blez_positive : seePc (stateOf [(9, 0x00000001)]) 0x19200003 = some 0x00400004 := by decide
theorem test_bgtz_positive : seePc (stateOf [(9, 0x7FFFFFFF)]) 0x1D200003 = some 0x00400010 := by decide
theorem test_bgtz_negative : seePc (stateOf [(9, 0x80000000)]) 0x1D200003 = some 0x00400004 := by decide
theorem test_bltz_taken : seePc (stateOf [(9, 0x80000000)]) 0x0520FFFC = some 0x003FFFF4 := by decide
theorem test_bltz_zero : seePc (stateOf []) 0x0520FFFC = some 0x00400004 := by decide
theorem test_bgez_taken : seePc (stateOf [(9, 0x7FFFFFFF)]) 0x05210002 = some 0x0040000C := by decide
theorem test_bgez_not_taken : seePc (stateOf [(9, 0xFFFFFFFF)]) 0x05210002 = some 0x00400004 := by decide
theorem test_bltzal_not_taken_links : seeLink (stateOf [(9, 0x00000001), (31, 0xAAAAAAAA)]) 0x05300002 31 = some (0x00400004, 0x00400004) := by decide
theorem test_bltzal_reads_old_link : seeLink (stateOf [(31, 0xFFFFFFFF)]) 0x07F00002 31 = some (0x00400004, 0x0040000C) := by decide
theorem test_bgezal_taken : seeLink (stateOf []) 0x04110002 31 = some (0x00400004, 0x0040000C) := by decide
theorem test_bgezal_reads_old_link : seeLink (stateOf [(31, 0x80000000)]) 0x07F10002 31 = some (0x00400004, 0x00400004) := by decide

/-! ## One step: loads and stores (V2.9) -/

/-- Base register 9 at 0x10000000, bytes 11 22 33 44 55 66 77 88 from there, and a value in register 8. -/
def bytesState (v : Word) : State :=
  withWords (stateOf [(9, 0x10000000), (8, v)]) [(0x10000000, 0x44332211), (0x10000004, 0x88776655)]

theorem test_lb_negative : seeReg (bytesState 0) 0x81280007 8 = some 0xFFFFFF88 := by decide
theorem test_lb_positive : seeReg (withWords (stateOf [(9, 0x10000000)]) [(0x10000000, 0x1234567F)]) 0x81280000 8 = some 0x0000007F := by decide
theorem test_lh_straddles : seeReg (bytesState 0) 0x85280003 8 = some 0x00005544 := by decide
theorem test_lh_negative : seeReg (withWords (stateOf [(9, 0x10000000)]) [(0x10000000, 0x12348000)]) 0x85280000 8 = some 0xFFFF8000 := by decide
theorem test_lw_unaligned : seeReg (bytesState 0) 0x8D280001 8 = some 0x55443322 := by decide
theorem test_lw_negative_displacement : seeReg (withWords (stateOf [(9, 0x10000000)]) [(0x0FFFFFFC, 0xCAFEBABE)]) 0x8D28FFFC 8 = some 0xCAFEBABE := by decide
theorem test_lbu_middle : seeReg (bytesState 0) 0x91280002 8 = some 0x00000033 := by decide
theorem test_lhu_end : seeReg (bytesState 0) 0x95280007 8 = some 0x00000088 := by decide
theorem test_sb_one_byte : seeWord (bytesState 0x000000AA) 0xA1280002 0x10000000 = some 0x44AA2211 ∧
    seeWord (bytesState 0x000000AA) 0xA1280002 0x10000004 = some 0x88776655 := by decide
theorem test_sh_straddles : seeWord (bytesState 0x0000BBAA) 0xA5280003 0x10000000 = some 0xAA332211 ∧
    seeWord (bytesState 0x0000BBAA) 0xA5280003 0x10000004 = some 0x887766BB := by decide
theorem test_sw_unaligned : seeWord (bytesState 0xDDCCBBAA) 0xAD280002 0x10000000 = some 0xBBAA2211 ∧
    seeWord (bytesState 0xDDCCBBAA) 0xAD280002 0x10000004 = some 0x8877DDCC := by decide
/-- The last vector of V2.9: the address 0xFFFFFFFE wraps to 0. -/
theorem test_sw_wraps : seeWord (stateOf [(8, 0xDDCCBBAA)]) 0xAD28FFFE 0xFFFFFFFC = some 0xBBAA0000 ∧
    seeWord (stateOf [(8, 0xDDCCBBAA)]) 0xAD28FFFE 0x00000000 = some 0x0000DDCC := by decide
/-- A stored zero byte leaves nothing listed: memory is as if never written (log 2). Worked by hand. -/
theorem test_canonical : Memory.writeByte (Memory.writeByte [] 5 7) 5 0 = [] := by decide

/-- Over MEM_ALIGNED a byte access at any of four consecutive addresses sees bits 7:0 of the aligned word (after R33), a fetch at a misaligned
PC runs the aligned word, and a byte store replaces those bits. The word at the PC is `lb $8, 3($9)` or `sb $8, 3($9)`; by hand. -/
theorem test_memAligned :
    (match stepOn memAligned (withWords (stateAt 0x00400002 [(9, 0x10000000)]) [(0x10000000, 0x12345681), (0x00400000, 0x81280003)]) with
      | .next t => some (t.reg 8) | .fault _ => none | .refused _ => none) = some 0xFFFFFF81 ∧
    (match stepOn memAligned (withWords (stateAt 0x00400001 [(9, 0x10000000), (8, 0xAA)])
        [(0x10000000, 0x12345681), (0x00400000, 0xA1280003)]) with
      | .next t => some (memAligned.readWord t.mem 0x10000001) | .fault _ => none | .refused _ => none) = some 0x123456AA := by decide

/-! ## One step: SYSCALL and the unassigned words (V2.10, V2.11) -/

theorem test_syscall_halts : see (fun t => (t.run, t.pc)) (stateOf [(2, 0x0000000A)]) 0x0000000C = some (false, 0x00400004) := by decide
theorem test_syscall_all_bits : see (fun t => (t.run, t.pc)) (stateOf [(2, 0x0001000A)]) 0x0000000C = some (true, 0x00400004) := by decide

/-- V2.11's start state. -/
def busyState : State :=
  withHiLo (withWords (stateOf [(9, 0x10000000), (8, 0x12345678), (2, 0x0000000A), (31, 0xAAAAAAAA)]) [(0x10000000, 0xCAFEBABE)])

/-- BREAK, ERET, LWL, SWL and an unassigned selector of standard MIPS leave the whole state but the PC (V2.11). -/
theorem test_unassigned_no_op : [0x0000000D, 0x42000018, 0x89280000, 0xA9280000, 0x05220002].all (fun w =>
    see id busyState w = some { busyState.withFetchWord 32 w with pc := 0x00400004 }) = true := by decide

/-- With RUN = 0 there is no step (R92). -/
theorem test_halted : step { State.reset with run := false } = .refused .halted := rfl

/-! ## Witnesses: states and operands that meet the hypotheses of each statement that has some. For the statements with an EncodedAs
clause they are the tests test_decode_<constructor>, one for each clause. -/

theorem witness_DivisionPolicyReachesCornersOnly :
    ((stateOf [(9, 0x80000000), (10, 0x00000001)]).reg 10 ≠ 0 ∧
      ¬(((stateOf [(9, 0x80000000), (10, 0x00000001)]).reg 9).toInt = -2 ^ 31 ∧
        ((stateOf [(9, 0x80000000), (10, 0x00000001)]).reg 10).toInt = -1)) ∧
    ((stateOf [(9, 0x80000001), (10, 0xFFFFFFFF)]).reg 10 ≠ 0 ∧
      ¬(((stateOf [(9, 0x80000001), (10, 0xFFFFFFFF)]).reg 9).toInt = -2 ^ 31 ∧
        ((stateOf [(9, 0x80000001), (10, 0xFFFFFFFF)]).reg 10).toInt = -1)) := by decide

theorem witness_ArithmeticLaws : (stateOf [(9, 0xDEADBEEF)]).reg 10 = 0 := by decide

theorem witness_ImmediateMatchesRegisterForm : (stateOf [(10, 0xFFFF8000)]).reg 10 = BitVec.signExtend 32 (0x8000 : Half) := by decide

/-- An instruction that never transfers, and a branch that does not. -/
theorem witness_DefaultPcUnlessTransfer :
    (∃ t, exec (.add 8 9 10) State.reset = .next t ∧ ¬ Instr.transfers (.add 8 9 10) State.reset) ∧
    (∃ t, exec (.bne 9 9 5) State.reset = .next t ∧ ¬ Instr.transfers (.bne 9 9 5) State.reset) :=
  ⟨⟨_, rfl, id⟩, ⟨_, rfl, fun h => h rfl⟩⟩

/-- A state that finds the link of JAL in register 31: the one JAL ends in. -/
theorem witness_JumpRegisterResults : ∃ t u : State, exec (.jal 0x0100040) (stateOf []) = .next t ∧ u.reg 31 = t.reg 31 :=
  ⟨_, _, rfl, rfl⟩

/-- A jump, and an instruction that is no jump. -/
theorem witness_PcAlignment :
    (∃ t, exec (.j 1) State.reset = .next t ∧ ∃ tgt26, Instr.j 1 = .j tgt26 ∨ Instr.j 1 = .jal tgt26) ∧
    (∃ t, exec (.beq 9 9 5) State.reset = .next t ∧ (∀ tgt26, Instr.beq 9 9 5 ≠ .j tgt26 ∧ Instr.beq 9 9 5 ≠ .jal tgt26) ∧
      ∀ rd rs, Instr.beq 9 9 5 ≠ .jr rs ∧ Instr.beq 9 9 5 ≠ .jalr rd rs) :=
  ⟨⟨_, rfl, 1, .inl rfl⟩, ⟨_, rfl, by simp, by simp⟩⟩

/-- The last label of a region, and the two ends of a branch's range. -/
theorem witness_LabelFieldsReachLabel : (stateOf []).pc = 0x00400000 ∧ jumpReaches 0x00400000 0x0FFFFFFC = true ∧
    branchReaches 0x00400000 0x00420000 = true ∧ branchReaches 0x00400000 0x003E0004 = true := by decide

/-- Any state has an effective address; here the one that wraps. -/
theorem witness_StoresChangeExactlyTheirBytes : effAddr (stateOf []) 9 0xFFFE = 0xFFFFFFFE := by decide

/-- A one-word memory: every address shares its storage. -/
def oneWord : MemComponent Word where
  readWord m _ := m
  writeWord _ _ v := v
  shares _ _ := true

/-- The vectors' state over another memory: the one word at every address. -/
def oneWordState (w : Word) : State Word := { pc := 0x00400000, regs := State.reset.regs, hi := 0, lo := 0, run := true, mem := w }

theorem oneWord_contract : oneWord.Contract :=
  ⟨fun _ _ _ => rfl, fun _ _ _ _ h => Bool.noConfusion h⟩

/-- A component that keeps the contract, and a store and a load that reach one address through different registers and displacements. -/
theorem witness_StoreThenLoadTable : oneWord.Contract ∧
    effAddr ((oneWordState 0).setReg 9 8) 9 0xFFFC = effAddr ((oneWordState 0).setReg 9 8) 10 4 := ⟨oneWord_contract, by decide⟩

theorem witness_AdapterIsByteMemory : Memory.wf [(0x10000000, 0x11), (0xFFFFFFFF, 0x22)] = true := by decide

/-- Two orders of writing the same two bytes. -/
theorem witness_CanonicalMemoriesWithEqualBytesAreEqual :
    Memory.wf (Memory.writeByte (Memory.writeByte [] 0 7) 0xFFFFFFFF 5) = true ∧
    Memory.wf (Memory.writeByte (Memory.writeByte [] 0xFFFFFFFF 5) 0 7) = true ∧
    ∀ a, (Memory.writeByte (Memory.writeByte [] 0 7) 0xFFFFFFFF 5).readByte a =
      (Memory.writeByte (Memory.writeByte [] 0xFFFFFFFF 5) 0 7).readByte a :=
  ⟨by decide, by decide, fun _ => rfl⟩

/-- `sw $9, 4($8)` with register 8 equal to the PC and the word of `addi $2, $0, 10` in register 9 (program 5 of spec/95_test_vectors.md). -/
theorem witness_StoreIsSeenByTheNextFetch :
    ∃ s t : State, s.run = true ∧ decode s.fetchWord = .instr (.sw 9 4 8) ∧ effAddr s 8 4 = s.pc + 4 ∧ step s = .next t ∧
      decode (s.reg 9) = .instr (.addi 2 0 10) :=
  ⟨(stateOf [(8, 0x00400000), (9, 0x2002000A)]).withFetchWord 32 0xAD090004, _, by decide, by decide, by decide, rfl, by decide⟩

/-- One word for each of the three lists; a word of each that is on none. -/
theorem witness_UnassignedWordsAreNoOps :
    ((stateOf []).withFetchWord 32 0xFFFFFFFF).run = true ∧ UnassignedWord ((stateOf []).withFetchWord 32 0xFFFFFFFF).fetchWord ∧
    UnassignedWord ((stateOf []).withFetchWord 32 0x0000000D).fetchWord ∧
    UnassignedWord ((stateOf []).withFetchWord 32 0x05220002).fetchWord := by
  unfold UnassignedWord; decide

theorem witness_OpcodeMapPartitionsWords : UnassignedWord 0x40000000 ∧ UnassignedWord 0x0000003F ∧ UnassignedWord 0x041F0000 ∧
    ¬ UnassignedWord 0x0000002B ∧ ¬ UnassignedWord 0x04110000 ∧ ¬ UnassignedWord 0xAFFFFFFF := by
  unfold UnassignedWord; decide

theorem witness_DecodeOfEncode : Instr.wf (.sra 31 0 31) = true ∧ Instr.wf (.j 0x3FFFFFF) = true := by decide

theorem witness_DecodeIffCareBitsMatch : Instr.wf (.sll 8 9 4) = true ∧
    (0x03E94100 : Word) &&& Instr.careMask (.sll 8 9 4) = encode (.sll 8 9 4) := by decide

/-- A state for each clause: an instruction at the PC, its bytes, an unassigned word, RUN = 0. -/
theorem witness_StepRunsTheDecodedInstruction :
    (∃ s : State, s.run = true ∧ decode (MEM.readWord s.mem s.pc) = .instr (.addi 8 0 5) ∧
      decodeBytes [s.byteAt s.pc, s.byteAt (s.pc + 1), s.byteAt (s.pc + 2), s.byteAt (s.pc + 3)] = .word (.instr (.addi 8 0 5)) []) ∧
    (∃ s : State, s.run = true ∧ decode (MEM.readWord s.mem s.pc) = .unassigned (.funct 0x0D)) ∧
    (∃ s : State, s.run = false) :=
  ⟨⟨(stateAt 0xFFFFFFFE []).withFetchWord 32 0x20080005, by decide, by decide, by decide⟩,
    ⟨(stateOf []).withFetchWord 32 0x0000000D, by decide, by decide⟩, ⟨State.reset.clearRun, rfl⟩⟩

theorem witness_RunIsOnlyClearedBySyscall :
    (∃ s t : State, exec .syscall s = .next t ∧ t.run ≠ s.run) ∧ (∃ s t : State, step s = .next t ∧ t.run = true) ∧
    (∃ s t : State, cycle s = .next t) :=
  ⟨⟨stateOf [(2, 0x0000000A)], _, rfl, by decide⟩, ⟨State.reset, _, rfl, by decide⟩, ⟨State.reset, _, rfl⟩⟩

theorem witness_HaltingSyscallEndsTheRun : ∃ s t : State, step s = .next t ∧ t.run = false :=
  ⟨(stateOf [(2, 0x0000000A)]).withFetchWord 32 0x0000000C, _, rfl, by decide⟩

/-- Memory that is not empty, and a step that stores. -/
theorem witness_StepKeepsMemoryCanonical :
    ∃ s t : State, StateInv s ∧ step s = .next t ∧ t.mem ≠ s.mem :=
  ⟨(bytesState 0xDDCCBBAA).withFetchWord 32 0xAD280002, _, by unfold StateInv; decide, rfl, by decide⟩

/-- MTHI writes HI and no register, no LO and no memory. -/
theorem witness_FrameRule : ∃ t, exec (.mthi 9) (stateOf [(9, 0xCAFEBABE)]) = .next t ∧ Instr.dest (.mthi 9) ≠ some 9 ∧
    ¬ Instr.writesLo (.mthi 9) ∧ ¬ Instr.isStore (.mthi 9) ∧ Instr.mthi 9 ≠ .syscall ∧ ¬ Instr.writesHi (.mtlo 9) :=
  ⟨_, rfl, by decide, by simp [Instr.writesLo], by simp [Instr.isStore], by decide, by simp [Instr.writesHi]⟩

/-- A register that is not read but written, and one that is neither. -/
theorem witness_UnreadRegistersHaveNoInfluence : (8 : RegIdx) ∉ Instr.reads (.add 8 9 10) ∧ (11 : RegIdx) ∉ Instr.reads (.add 8 9 10) ∧
    (3 : RegIdx) ∉ Instr.reads .syscall := by decide

theorem witness_HiLoSeenOnlyByMoves : (∃ t, exec (.mthi 9) (stateOf [(9, 0xCAFEBABE)]) = .next t ∧ t.hi ≠ (stateOf [(9, 0xCAFEBABE)]).hi) ∧
    (∃ t, exec (.mtlo 9) (stateOf [(9, 0xCAFEBABE)]) = .next t ∧ t.lo ≠ (stateOf [(9, 0xCAFEBABE)]).lo) ∧
    (∀ rd, Instr.mflo 8 ≠ .mfhi rd) ∧ (∀ rd, Instr.mfhi 8 ≠ .mflo rd) :=
  ⟨⟨_, rfl, by decide⟩, ⟨_, rfl, by decide⟩, by simp, by simp⟩

theorem witness_RegisterZeroIsOrdinary : (stateOf []).reg 0 = 0 := by decide

/-- A state for each clause; the two halting clauses exclude each other by register 2. -/
theorem witness_NotableWords : ((stateOf []).withFetchWord 32 0x00000000).run = true ∧
    ((stateOf []).withFetchWord 32 0x00000000).fetchWord = 0x00000000 ∧
    ((stateOf [(2, 0x0000000A)]).withFetchWord 32 0x0000000C).fetchWord = 0x0000000C ∧
    ((stateOf [(2, 0x0000000A)]).withFetchWord 32 0x0000000C).reg 2 = 10 ∧
    ((stateOf [(2, 0x8000000A)]).withFetchWord 32 0x0000000C).fetchWord = 0x0000000C ∧
    ((stateOf [(2, 0x8000000A)]).withFetchWord 32 0x0000000C).reg 2 ≠ 10 ∧
    ((stateOf []).withFetchWord 32 0x04020000).fetchWord ∈ [0xFFFFFFFF, 0x0000000D, 0x42000018, 0x04020000] ∧
    ((stateOf []).withFetchWord 32 0x40FFFFFF).fetchWord &&& 0xFF000000 = 0x40000000 ∧
    ((stateOf []).withFetchWord 32 0x00000040).fetchWord = 0x00000040 := by decide

/-- V2.9's state over MEM_LE as a list and as a function: memory as a list, holding bytes, is a relation as the first clause asks, and both
clauses have a state and both values of RUN. -/
theorem witness_StepSeesMemoryThroughItsPrimitives :
    (∀ m B, Memory.Holds m B → ∀ a, MEM.readWord m a = memBytes.readWord B a) ∧
    (∀ m B, Memory.Holds m B → ∀ a v, Memory.Holds (MEM.writeWord m a v) (memBytes.writeWord B a v)) ∧
    ∃ (s : State) (t : State (Word → Byte)), StateInv s ∧ SameCore s t ∧ Memory.Holds s.mem t.mem ∧ s.run = true ∧
      SameCore s.clearRun t.clearRun ∧ s.mem ≠ [] := by
  exact ⟨fun _ _ h => h.readWord, fun _ _ h => h.writeWord, bytesState 0, ⟨0x00400000, (bytesState 0).regs, 0, 0, true, (bytesState 0).mem.readByte⟩,
    by unfold StateInv; decide, ⟨rfl, fun _ => rfl, ⟨rfl, rfl⟩, rfl⟩, fun _ => rfl, rfl, ⟨rfl, fun _ => rfl, ⟨rfl, rfl⟩, rfl⟩, by decide⟩

/-- Over the one-word memory: an instruction at the PC, and an unassigned word. -/
theorem witness_LoadsStoresAndFetchOverEveryMemory :
    (∃ s : State Word, s.run = true ∧ decode (oneWord.readWord s.mem s.pc) = .instr (.lw 8 0 9)) ∧
    (∃ s : State Word, s.run = true ∧ decode (oneWord.readWord s.mem s.pc) = .unassigned (.funct 0x0D)) :=
  ⟨⟨oneWordState 0x8D280000, rfl, by decide⟩, ⟨oneWordState 0x0000000D, rfl, by decide⟩⟩

/-- MEM_LE with nothing written and the one-word memory holding 0 return the same word at every address. -/
theorem witness_EveryMemoryRunsTheSameCore :
    SameCore (stateOf []) (oneWordState 0) ∧ ¬ Instr.isLoad (.mthi 9) ∧ ¬ Instr.isStore (.mthi 9) ∧
    ∀ a, MEM.readWord (stateOf []).mem a = oneWord.readWord (oneWordState 0).mem a :=
  ⟨⟨rfl, fun _ => rfl, ⟨rfl, rfl⟩, rfl⟩, by simp [Instr.isLoad], by simp [Instr.isStore],
    fun _ => (by decide : wordOfBytes 0 0 0 0 = 0)⟩

/-- Its clauses on the three stores and on every other word: two states over the one-word memory that fetch each. -/
theorem witness_EveryMemoryRunsTheSameCore_clauses :
    (∀ w : Word, SameCore (oneWordState w) (oneWordState w)) ∧
    decode ((oneWordState 0xA1280002).fetchFrom oneWord) = .instr (.sb 8 2 9) ∧
    decode ((oneWordState 0xA5280003).fetchFrom oneWord) = .instr (.sh 8 3 9) ∧
    decode ((oneWordState 0xAD28FFFE).fetchFrom oneWord) = .instr (.sw 8 0xFFFE 9) ∧
    ∀ i : Instr, decode ((oneWordState 0x0000000D).fetchFrom oneWord) = .instr i → ¬ i.isStore :=
  ⟨fun _ => ⟨rfl, fun _ => rfl, ⟨rfl, rfl⟩, rfl⟩, by decide, by decide, by decide, fun i h => by
    rw [show decode ((oneWordState 0x0000000D).fetchFrom oneWord) = .unassigned (.funct 0x0D) from by decide] at h
    cases h⟩

end Sys2Proof.Tests
end

section
/-! Register 0 (R11): what ADDI and ADD complete with, and the spec's two-instruction example. -/

namespace Sys2Proof.Machine

/-- R131: the sum is stored in rt, register 0 and rt = rs included. -/
theorem completes_addi {s : State} {rt rs : RegIdx} {imm : Half} {P : State → Prop}
    (h : P (s.defaultNext.setReg rt (s.reg rs + extendedImm imm))) : Completes (.addi rt rs imm) s P :=
  ⟨_, exec_addi s rt rs imm, h⟩

/-- R103: the sum is stored in rd, register 0 included. -/
theorem completes_add {s : State} {rd rs rt : RegIdx} {P : State → Prop}
    (h : P (s.defaultNext.setReg rd (s.reg rs + s.reg rt))) : Completes (.add rd rs rt) s P :=
  ⟨_, exec_add s rd rs rt, h⟩

/-- Settles O56: a register reads as what was written to it, and the example reads register 0 after writing 5 to it. -/
theorem registerZeroIsOrdinary : Obligations.RegisterZeroIsOrdinary := by
  unfold Obligations.RegisterZeroIsOrdinary
  refine ⟨fun s r v => s.reg_setReg_same r v, fun s h0 => completes_addi ?_⟩
  have zero : (s.defaultNext.setReg 0 (s.reg 0 + extendedImm 5)).reg 0 = 5 := by
    rw [State.reg_setReg_same, h0]; decide
  refine ⟨zero, completes_add ⟨?_, ?_⟩⟩
  · rw [State.reg_setReg_same, zero]; decide
  · rw [State.reg_setReg_ne _ (by decide), State.defaultNext_reg, zero]

end Sys2Proof.Machine
end

section
/-! The memory adapter (R36 to R41), bit by bit, over any memory component. -/

namespace Sys2Proof.Machine

/-- The merge of R39 and R40, for a value of any width `n`: the mask keeps the bits from `n` upwards, and the value fills those below. -/
theorem getLsbD_mergeLow {n : Nat} (w : Word) (v : BitVec n) {i : Nat} (hi : i < 32) :
    ((w &&& (BitVec.allOnes 32 <<< n)) ||| v.setWidth 32).getLsbD i = if i < n then v.getLsbD i else w.getLsbD i := by
  simp only [BitVec.getLsbD_or, BitVec.getLsbD_and, BitVec.getLsbD_shiftLeft, BitVec.getLsbD_allOnes, BitVec.getLsbD_setWidth]
  by_cases low : i < n
  · simp [low, hi]
  · have above : v.getLsbD i = false := BitVec.getLsbD_of_ge v i (by omega)
    simp [low, hi, above, (by omega : i - n < 32)]

section
variable {μ : Type} (M : MemComponent μ) (m : μ) (a : Word)

/-- R36. -/
theorem MemComponent.getLsbD_memRead1 {i : Nat} (hi : i < 8) : (M.memRead1 m a).getLsbD i = (M.readWord m a).getLsbD i := by
  simp [MemComponent.memRead1, hi]

/-- R37. -/
theorem MemComponent.getLsbD_memRead2 {i : Nat} (hi : i < 16) : (M.memRead2 m a).getLsbD i = (M.readWord m a).getLsbD i := by
  simp [MemComponent.memRead2, hi]

/-- R39: the mask 0xFFFFFF00 is the ones from bit 8 upwards. -/
theorem MemComponent.memWrite1_eq_mergeLow (v : Byte) :
    M.memWrite1 m a v = M.writeWord m a ((M.readWord m a &&& (BitVec.allOnes 32 <<< 8)) ||| v.setWidth 32) := by
  rw [show BitVec.allOnes 32 <<< 8 = 0xFFFFFF00#32 from by decide]; rfl

/-- R40: the mask 0xFFFF0000 is the ones from bit 16 upwards. -/
theorem MemComponent.memWrite2_eq_mergeLow (v : Half) :
    M.memWrite2 m a v = M.writeWord m a ((M.readWord m a &&& (BitVec.allOnes 32 <<< 16)) ||| v.setWidth 32) := by
  rw [show BitVec.allOnes 32 <<< 16 = 0xFFFF0000#32 from by decide]; rfl

end

/-- Settles O33: the word a store of one or two bytes writes is the merge of R39 and R40, and the four-byte accesses are the primitives. -/
theorem adapterUsesLowBits : Obligations.AdapterUsesLowBits := by
  unfold Obligations.AdapterUsesLowBits
  intro μ M m a
  refine ⟨fun i hi => M.getLsbD_memRead1 m a hi, fun i hi => M.getLsbD_memRead2 m a hi, rfl, fun v => ?_, fun v => ?_, fun v => rfl⟩
  · exact ⟨_, M.memWrite1_eq_mergeLow m a v, fun i hi => getLsbD_mergeLow (M.readWord m a) v hi⟩
  · exact ⟨_, M.memWrite2_eq_mergeLow m a v, fun i hi => getLsbD_mergeLow (M.readWord m a) v hi⟩

end Sys2Proof.Machine
end

section
/-! The derived operands as numbers (R58 to R61). -/

namespace Sys2Proof.Machine

/-- R59: the shift loses nothing, since four times a signed half fits in 32 signed bits. -/
theorem branchOffset_toInt (imm : Half) : (branchOffset imm).toInt = 4 * imm.toInt := by
  have lower : -2 ^ 15 ≤ imm.toInt := imm.le_toInt
  have upper : imm.toInt < 2 ^ 15 := imm.toInt_lt
  calc (branchOffset imm).toInt
      = (extendedImm imm * 4).toInt := by rw [branchOffset, BitVec.shiftLeft_eq_mul_twoPow]; rfl
    _ = (imm.toInt * 4).bmod (2 ^ 32) := by rw [BitVec.toInt_mul, extendedImm_toInt]; rfl
    _ = imm.toInt * 4 := Int.bmod_eq_of_le (by omega) (by omega)
    _ = 4 * imm.toInt := Int.mul_comm ..

/-- R60: the sum wraps modulo 2^32. -/
theorem effAddr_toNat {μ : Type} (s : State μ) (rs : RegIdx) (imm : Half) :
    ((effAddr s rs imm).toNat : Int) = ((s.reg rs).toNat + imm.toInt : Int) % 2 ^ 32 := by
  have extended : ((extendedImm imm).toNat : Int) = imm.toInt % 2 ^ 32 := by
    rw [extendedImm_eq_ofInt, BitVec.toNat_ofInt]; omega
  rw [effAddr, BitVec.toNat_add]
  omega

/-- Settles O45: sign extension keeps the number, and of the other three only the address can wrap. -/
theorem derivedOperandValues : Obligations.DerivedOperandValues := by
  unfold Obligations.DerivedOperandValues
  intro imm tgt26 rs s
  have target : (jumpTarget tgt26).toNat = 4 * tgt26.toNat := by rw [jumpTarget_toNat, Nat.mul_comm]
  exact ⟨extendedImm_toInt imm, branchOffset_toInt imm, effAddr_toNat s rs imm, target⟩

end Sys2Proof.Machine
end

section
/-! The default PC (R83): where the transfer condition of R161 fails, and for the unassigned words. -/

namespace Sys2Proof.Machine

/-! ## The branch conditions as R153 to R156 state them -/

theorem isNegative_iff_toInt (v : Word) : isNegative v = true ↔ v.toInt < 0 := decide_eq_true_iff

theorem not_isNegative_iff_toInt (v : Word) : (!isNegative v) = true ↔ 0 ≤ v.toInt := by simp [isNegative]

theorem isNonPositive_iff_toInt (v : Word) : isNonPositive v = true ↔ v.toInt ≤ 0 := decide_eq_true_iff

theorem not_isNonPositive_iff_toInt (v : Word) : (!isNonPositive v) = true ↔ 0 < v.toInt := by simp [isNonPositive]

/-! ## The next PC -/

/-- R146: a branch whose condition fails leaves the PC of the next state it is given. -/
theorem State.branchIf_pc_of_not_taken {μ : Type} (next : State μ) {taken : Bool} (pc : Word) (imm : Half) (fails : ¬ taken = true) :
    (next.branchIf taken pc imm).pc = next.pc := by
  rw [State.branchIf_pc, if_neg fails]

/-- An instruction has one next state, so what it completes with holds of the one it answers. -/
theorem Completes.of_next {i : Instr} {s t : State} {P : State → Prop} (completes : Completes i s P) (h : exec i s = .next t) : P t := by
  obtain ⟨u, answers, holds⟩ := completes
  cases answers.symm.trans h
  exact holds

/-- R83: a jump always transfers, a branch transfers exactly on the condition it tests, and every other instruction leaves the default PC. -/
theorem completes_defaultPc_of_not_transfers (i : Instr) {s : State} (stays : ¬ i.transfers s) :
    Completes i s fun t => t.pc = s.pc + 4 := by
  cases i
  case j | jal | jr | jalr => exact absurd trivial stays
  case beq rs rt imm => exact ⟨_, exec_beq s rs rt imm, State.branchIf_pc_of_not_taken _ _ _ (mt beq_iff_eq.mp stays)⟩
  case bne rs rt imm => exact ⟨_, exec_bne s rs rt imm, State.branchIf_pc_of_not_taken _ _ _ (mt bne_iff_ne.mp stays)⟩
  case blez rs imm => exact ⟨_, exec_blez s rs imm, State.branchIf_pc_of_not_taken _ _ _ (mt (isNonPositive_iff_toInt _).mp stays)⟩
  case bgtz rs imm => exact ⟨_, exec_bgtz s rs imm, State.branchIf_pc_of_not_taken _ _ _ (mt (not_isNonPositive_iff_toInt _).mp stays)⟩
  case bltz rs imm => exact ⟨_, exec_bltz s rs imm, State.branchIf_pc_of_not_taken _ _ _ (mt (isNegative_iff_toInt _).mp stays)⟩
  case bgez rs imm => exact ⟨_, exec_bgez s rs imm, State.branchIf_pc_of_not_taken _ _ _ (mt (not_isNegative_iff_toInt _).mp stays)⟩
  case bltzal rs imm => exact ⟨_, exec_bltzal s rs imm, State.branchIf_pc_of_not_taken _ _ _ (mt (isNegative_iff_toInt _).mp stays)⟩
  case bgezal rs imm => exact ⟨_, exec_bgezal s rs imm, State.branchIf_pc_of_not_taken _ _ _ (mt (not_isNegative_iff_toInt _).mp stays)⟩
  case syscall =>
    refine ⟨_, exec_syscall s, ?_⟩
    split <;> rfl
  all_goals exact ⟨_, rfl, rfl⟩

/-- Settles O25: an instruction that does not transfer completes with the default PC, and the no-op of R89 writes nothing else. -/
theorem defaultPcUnlessTransfer : Obligations.DefaultPcUnlessTransfer := by
  unfold Obligations.DefaultPcUnlessTransfer
  exact ⟨fun i s t h stays => (completes_defaultPc_of_not_transfers i stays).of_next h, fun _ s => ⟨s.defaultNext, rfl, rfl⟩⟩

end Sys2Proof.Machine
end

section
/-! The laws of the immediate instructions (R139). -/

namespace Sys2Proof.Machine

/-- R132: the sum is stored in rt, register 0 and rt = rs included. -/
theorem completes_addiu {s : State} {rt rs : RegIdx} {imm : Half} {P : State → Prop}
    (h : P (s.defaultNext.setReg rt (s.reg rs + extendedImm imm))) : Completes (.addiu rt rs imm) s P :=
  ⟨_, exec_addiu s rt rs imm, h⟩

/-- R139: adding the immediate 0 stores the source register, also where rt = rs. -/
theorem State.reg_setReg_add_extendedImm_zero {μ : Type} (s next : State μ) (rt rs : RegIdx) :
    (next.setReg rt (s.reg rs + extendedImm 0)).reg rt = s.reg rs := by
  have zero : extendedImm 0 = 0#32 := by decide
  rw [State.reg_setReg_same, zero, BitVec.add_zero]

/-- Settles O17: both forms write one function of `x[rs]` and the second operand into the same register, so they end alike where the
operands agree. -/
theorem immediateMatchesRegisterForm : Obligations.ImmediateMatchesRegisterForm := by
  unfold Obligations.ImmediateMatchesRegisterForm
  intro rt rs rx imm s h
  have operand : s.reg rx = extendedImm imm := h
  refine ⟨?addi, ?addiu, ?slti, ?sltiu, ?andi, ?ori, ?xori, ?addi_zero, ?addiu_zero⟩
  case addi => rw [exec_addi, exec_add, operand]
  case addiu => rw [exec_addiu, exec_add, operand]
  case slti => rw [exec_slti, exec_slt, operand]
  case sltiu => rw [exec_sltiu, exec_sltu, operand]
  case andi => rw [exec_andi, exec_and, operand]
  case ori => rw [exec_ori, exec_or, operand]
  case xori => rw [exec_xori, exec_xor, operand]
  case addi_zero => exact completes_addi (s.reg_setReg_add_extendedImm_zero _ rt rs)
  case addiu_zero => exact completes_addiu (s.reg_setReg_add_extendedImm_zero _ rt rs)

end Sys2Proof.Machine
end

section
/-! Decoding and encoding (R56 to R66): every word is the one its fields spell, and an instruction's row and the operand fields fix what it
decodes to. -/

namespace Sys2Proof

/-! ## A word and its fields -/

/-- R56: the six fields of the R-type cover the word. -/
theorem rType_fields (w : Word) : rType (fieldOp w) (rsOf w) (rtOf w) (rdOf w) (shamtOf w) (fieldFunct w) = w := by
  simp only [rType, rsOf, rtOf, rdOf, shamtOf, fieldOfReg_regOfField, BitVec.ofNat_toNat, BitVec.setWidth_eq, fieldOp, fieldRs,
    fieldRt, fieldRd, fieldShamt, fieldFunct]
  repeat rw [BitVec.extractLsb'_append_extractLsb'_eq_extractLsb' (by rfl)]
  exact BitVec.extractLsb'_eq_self

/-- R56: so do the four fields of the I-type. -/
theorem iType_fields (w : Word) : iType (fieldOp w) (rsOf w) (rtOf w) (fieldImm w) = w := by
  simp only [iType, rsOf, rtOf, fieldOfReg_regOfField, fieldOp, fieldRs, fieldRt, fieldImm]
  repeat rw [BitVec.extractLsb'_append_extractLsb'_eq_extractLsb' (by rfl)]
  exact BitVec.extractLsb'_eq_self

/-- R56: and the two of the J-type. -/
theorem jType_fields (w : Word) : jType (fieldOp w) (fieldTgt26 w) = w := by
  rw [jType, fieldOp, fieldTgt26, BitVec.extractLsb'_append_extractLsb'_eq_extractLsb' (by rfl)]
  exact BitVec.extractLsb'_eq_self

/-- A masked word, field by field. -/
theorem and_eq_rType {w mask : Word} {op funct : BitVec 6} {rs rt rd : RegIdx} {shamt : Nat}
    (hop : fieldOp w &&& fieldOp mask = op) (hrs : fieldRs w &&& fieldRs mask = fieldOfReg rs)
    (hrt : fieldRt w &&& fieldRt mask = fieldOfReg rt) (hrd : fieldRd w &&& fieldRd mask = fieldOfReg rd)
    (hshamt : fieldShamt w &&& fieldShamt mask = BitVec.ofNat 5 shamt) (hfunct : fieldFunct w &&& fieldFunct mask = funct) :
    w &&& mask = rType op rs rt rd shamt funct := by
  rw [← rType_fields (w &&& mask)]
  simp only [rType, rsOf, rtOf, rdOf, shamtOf, fieldOfReg_regOfField, BitVec.ofNat_toNat, BitVec.setWidth_eq, ← hop, ← hrs, ← hrt, ← hrd,
    ← hshamt, ← hfunct]
  simp only [fieldOp, fieldRs, fieldRt, fieldRd, fieldShamt, fieldFunct, BitVec.extractLsb'_and]

theorem and_eq_iType {w mask : Word} {op : BitVec 6} {rs rt : RegIdx} {imm : Half}
    (hop : fieldOp w &&& fieldOp mask = op) (hrs : fieldRs w &&& fieldRs mask = fieldOfReg rs)
    (hrt : fieldRt w &&& fieldRt mask = fieldOfReg rt) (himm : fieldImm w &&& fieldImm mask = imm) :
    w &&& mask = iType op rs rt imm := by
  rw [← iType_fields (w &&& mask)]
  simp only [iType, rsOf, rtOf, fieldOfReg_regOfField, ← hop, ← hrs, ← hrt, ← himm]
  simp only [fieldOp, fieldRs, fieldRt, fieldImm, BitVec.extractLsb'_and]

/-! ## The three row masks (R65) -/

section
variable (w : Word)

theorem and_functMask : w &&& 0xFC00003F = rType (fieldOp w) 0 0 0 0 (fieldFunct w) :=
  and_eq_rType BitVec.and_allOnes BitVec.and_zero BitVec.and_zero BitVec.and_zero BitVec.and_zero BitVec.and_allOnes

theorem and_selectorMask : w &&& 0xFC1F0000 = iType (fieldOp w) 0 (rtOf w) 0 :=
  and_eq_iType BitVec.and_allOnes BitVec.and_zero BitVec.and_allOnes BitVec.and_zero

theorem and_opcodeMask : w &&& 0xFC000000 = iType (fieldOp w) 0 0 0 :=
  and_eq_iType BitVec.and_allOnes BitVec.and_zero BitVec.and_zero BitVec.and_zero

/-! ## The care masks with ignored fields (R65, D13) -/

theorem and_careMask_shift : w &&& 0xFC1FFFFF = rType (fieldOp w) 0 (rtOf w) (rdOf w) (shamtOf w) (fieldFunct w) :=
  and_eq_rType BitVec.and_allOnes BitVec.and_zero BitVec.and_allOnes BitVec.and_allOnes
    (by simp only [shamtOf, BitVec.ofNat_toNat, BitVec.setWidth_eq]; exact BitVec.and_allOnes) BitVec.and_allOnes

theorem and_careMask_threeRegs : w &&& 0xFFFFF83F = rType (fieldOp w) (rsOf w) (rtOf w) (rdOf w) 0 (fieldFunct w) :=
  and_eq_rType BitVec.and_allOnes BitVec.and_allOnes BitVec.and_allOnes BitVec.and_allOnes BitVec.and_zero BitVec.and_allOnes

theorem and_careMask_sources : w &&& 0xFFFF003F = rType (fieldOp w) (rsOf w) (rtOf w) 0 0 (fieldFunct w) :=
  and_eq_rType BitVec.and_allOnes BitVec.and_allOnes BitVec.and_allOnes BitVec.and_zero BitVec.and_zero BitVec.and_allOnes

theorem and_careMask_rd : w &&& 0xFC00F83F = rType (fieldOp w) 0 0 (rdOf w) 0 (fieldFunct w) :=
  and_eq_rType BitVec.and_allOnes BitVec.and_zero BitVec.and_zero BitVec.and_allOnes BitVec.and_zero BitVec.and_allOnes

theorem and_careMask_rs : w &&& 0xFFE0003F = rType (fieldOp w) (rsOf w) 0 0 0 (fieldFunct w) :=
  and_eq_rType BitVec.and_allOnes BitVec.and_allOnes BitVec.and_zero BitVec.and_zero BitVec.and_zero BitVec.and_allOnes

theorem and_careMask_rdRs : w &&& 0xFFE0F83F = rType (fieldOp w) (rsOf w) 0 (rdOf w) 0 (fieldFunct w) :=
  and_eq_rType BitVec.and_allOnes BitVec.and_allOnes BitVec.and_zero BitVec.and_allOnes BitVec.and_zero BitVec.and_allOnes

theorem and_careMask_rtImm : w &&& 0xFC1FFFFF = iType (fieldOp w) 0 (rtOf w) (fieldImm w) :=
  and_eq_iType BitVec.and_allOnes BitVec.and_zero BitVec.and_allOnes BitVec.and_allOnes

theorem and_careMask_rsImm : w &&& 0xFFE0FFFF = iType (fieldOp w) (rsOf w) 0 (fieldImm w) :=
  and_eq_iType BitVec.and_allOnes BitVec.and_allOnes BitVec.and_zero BitVec.and_allOnes

theorem and_careMask_rsRtImm : w &&& 0xFFFFFFFF = iType (fieldOp w) (rsOf w) (rtOf w) (fieldImm w) :=
  and_eq_iType BitVec.and_allOnes BitVec.and_allOnes BitVec.and_allOnes BitVec.and_allOnes

theorem and_careMask_target : w &&& 0xFFFFFFFF = jType (fieldOp w) (fieldTgt26 w) :=
  BitVec.and_allOnes.trans (jType_fields w).symm

end

/-! ## An instruction with the operands a word holds -/

/-- The instruction of the same row whose operands are read from the fields of `w`, as the Encoding line of its rule places them. -/
def Instr.readFrom (w : Word) : Instr → Instr
  | .sll .. => .sll (rdOf w) (rtOf w) (shamtOf w)
  | .srl .. => .srl (rdOf w) (rtOf w) (shamtOf w)
  | .sra .. => .sra (rdOf w) (rtOf w) (shamtOf w)
  | .sllv .. => .sllv (rdOf w) (rtOf w) (rsOf w)
  | .srlv .. => .srlv (rdOf w) (rtOf w) (rsOf w)
  | .srav .. => .srav (rdOf w) (rtOf w) (rsOf w)
  | .jr .. => .jr (rsOf w)
  | .jalr .. => .jalr (rdOf w) (rsOf w)
  | .syscall => .syscall
  | .mfhi .. => .mfhi (rdOf w)
  | .mthi .. => .mthi (rsOf w)
  | .mflo .. => .mflo (rdOf w)
  | .mtlo .. => .mtlo (rsOf w)
  | .mult .. => .mult (rsOf w) (rtOf w)
  | .multu .. => .multu (rsOf w) (rtOf w)
  | .div .. => .div (rsOf w) (rtOf w)
  | .divu .. => .divu (rsOf w) (rtOf w)
  | .add .. => .add (rdOf w) (rsOf w) (rtOf w)
  | .addu .. => .addu (rdOf w) (rsOf w) (rtOf w)
  | .sub .. => .sub (rdOf w) (rsOf w) (rtOf w)
  | .subu .. => .subu (rdOf w) (rsOf w) (rtOf w)
  | .and .. => .and (rdOf w) (rsOf w) (rtOf w)
  | .or .. => .or (rdOf w) (rsOf w) (rtOf w)
  | .xor .. => .xor (rdOf w) (rsOf w) (rtOf w)
  | .nor .. => .nor (rdOf w) (rsOf w) (rtOf w)
  | .slt .. => .slt (rdOf w) (rsOf w) (rtOf w)
  | .sltu .. => .sltu (rdOf w) (rsOf w) (rtOf w)
  | .bltz .. => .bltz (rsOf w) (fieldImm w)
  | .bgez .. => .bgez (rsOf w) (fieldImm w)
  | .bltzal .. => .bltzal (rsOf w) (fieldImm w)
  | .bgezal .. => .bgezal (rsOf w) (fieldImm w)
  | .j .. => .j (fieldTgt26 w)
  | .jal .. => .jal (fieldTgt26 w)
  | .beq .. => .beq (rsOf w) (rtOf w) (fieldImm w)
  | .bne .. => .bne (rsOf w) (rtOf w) (fieldImm w)
  | .blez .. => .blez (rsOf w) (fieldImm w)
  | .bgtz .. => .bgtz (rsOf w) (fieldImm w)
  | .addi .. => .addi (rtOf w) (rsOf w) (fieldImm w)
  | .addiu .. => .addiu (rtOf w) (rsOf w) (fieldImm w)
  | .slti .. => .slti (rtOf w) (rsOf w) (fieldImm w)
  | .sltiu .. => .sltiu (rtOf w) (rsOf w) (fieldImm w)
  | .andi .. => .andi (rtOf w) (rsOf w) (fieldImm w)
  | .ori .. => .ori (rtOf w) (rsOf w) (fieldImm w)
  | .xori .. => .xori (rtOf w) (rsOf w) (fieldImm w)
  | .lui .. => .lui (rtOf w) (fieldImm w)
  | .lb .. => .lb (rtOf w) (fieldImm w) (rsOf w)
  | .lh .. => .lh (rtOf w) (fieldImm w) (rsOf w)
  | .lw .. => .lw (rtOf w) (fieldImm w) (rsOf w)
  | .lbu .. => .lbu (rtOf w) (fieldImm w) (rsOf w)
  | .lhu .. => .lhu (rtOf w) (fieldImm w) (rsOf w)
  | .sb .. => .sb (rtOf w) (fieldImm w) (rsOf w)
  | .sh .. => .sh (rtOf w) (fieldImm w) (rsOf w)
  | .sw .. => .sw (rtOf w) (fieldImm w) (rsOf w)

@[simp] theorem Instr.rowMask_readFrom (w : Word) (i : Instr) : (i.readFrom w).rowMask = i.rowMask := by cases i <;> rfl

@[simp] theorem Instr.rowMatch_readFrom (w : Word) (i : Instr) : (i.readFrom w).rowMatch = i.rowMatch := by cases i <;> rfl

/-- A 5-bit shift amount is below 32, so what a word holds is well-formed. -/
theorem Instr.wf_readFrom (w : Word) (i : Instr) : (i.readFrom w).wf = true := by
  have shamt : shamtOf w < 32 := (fieldShamt w).isLt
  cases i
  case sll | srl | sra => exact decide_eq_true shamt
  all_goals rfl

/-! ## The row decides -/

/-- R85: under opcode 0 a row fixes the opcode and the function code. -/
theorem decode_of_functRow {w fixed : Word} {d : Decoded} (h : w &&& 0xFC00003F = fixed) (hop : fieldOp fixed = 0x00#6)
    (hd : fieldFunct w = fieldFunct fixed → decodeFunct w = d) : decode w = d := by
  rw [decode_of_op0 ((fieldOp_of_mask (by decide) h).trans hop)]
  exact hd (fieldFunct_of_mask (by decide) h)

/-- R86: under opcode 1 a row fixes the opcode and the selector. -/
theorem decode_of_selectorRow {w fixed : Word} {d : Decoded} (h : w &&& 0xFC1F0000 = fixed) (hop : fieldOp fixed = 0x01#6)
    (hd : fieldRt w = fieldRt fixed → decodeSelector w = d) : decode w = d := by
  rw [decode_of_op1 ((fieldOp_of_mask (by decide) h).trans hop)]
  exact hd (fieldRt_of_mask (by decide) h)

/-- A word with the fixed bits of an instruction's row is that instruction, with the operands the word holds. -/
theorem decode_of_row {w : Word} {i : Instr} (h : w &&& i.rowMask = i.rowMatch) : decode w = .instr (i.readFrom w) := by
  cases i <;> simp only [Instr.rowMask, Instr.rowMatch] at h
  case bltz | bgez | bltzal | bgezal =>
    refine decode_of_selectorRow h (by rfl) fun hrt => ?_
    rw [show decodeSelector w = _ from by unfold decodeSelector; rw [hrt]]
    rfl
  case j | jal | beq | bne | blez | bgtz | addi | addiu | slti | sltiu | andi | ori | xori | lui | lb | lh | lw | lbu | lhu | sb | sh | sw =>
    have hop := fieldOp_of_mask (by decide) h
    unfold decode
    rw [hop]
    rfl
  all_goals
    refine decode_of_functRow h (by rfl) fun hfunct => ?_
    unfold decodeFunct
    rw [hfunct]
    rfl

/-- The encoder writes the fixed bits of the row. -/
theorem encode_and_rowMask (i : Instr) : encode i &&& i.rowMask = i.rowMatch := by
  cases i
  case bltz | bgez | bltzal | bgezal => exact Laws.FixedBits.iType_masked_rt ..
  case j | jal => exact Laws.FixedBits.jType_masked ..
  case beq | bne | blez | bgtz | addi | addiu | slti | sltiu | andi | ori | xori | lui | lb | lh | lw | lbu | lhu | sb | sh | sw =>
    exact Laws.FixedBits.iType_masked ..
  all_goals exact Laws.FixedBits.rType_masked ..

/-- A word of an instruction's row, without its ignored bits, is the encoding of the instruction with the operands the word holds. -/
theorem encode_readFrom {w : Word} {i : Instr} (h : w &&& i.rowMask = i.rowMatch) : encode (i.readFrom w) = w &&& i.careMask := by
  cases i <;> simp only [Instr.rowMask, Instr.rowMatch] at h <;> have hop := fieldOp_of_mask (by decide) h
  case bltz | bgez | bltzal | bgezal =>
    refine Eq.trans ?_ (and_careMask_rsRtImm w).symm
    rw [hop, rtOf, fieldRt_of_mask (by decide) h]
    rfl
  case j | jal => exact Eq.trans (by rw [hop]; rfl) (and_careMask_target w).symm
  case blez | bgtz => exact Eq.trans (by rw [hop]; rfl) (and_careMask_rsImm w).symm
  case lui => exact Eq.trans (by rw [hop]; rfl) (and_careMask_rtImm w).symm
  case beq | bne | addi | addiu | slti | sltiu | andi | ori | xori | lb | lh | lw | lbu | lhu | sb | sh | sw =>
    exact Eq.trans (by rw [hop]; rfl) (and_careMask_rsRtImm w).symm
  all_goals have hfunct := fieldFunct_of_mask (by decide) h
  case sll | srl | sra => exact Eq.trans (by rw [hop, hfunct]; rfl) (and_careMask_shift w).symm
  case mult | multu | div | divu => exact Eq.trans (by rw [hop, hfunct]; rfl) (and_careMask_sources w).symm
  case mfhi | mflo => exact Eq.trans (by rw [hop, hfunct]; rfl) (and_careMask_rd w).symm
  case mthi | mtlo | jr => exact Eq.trans (by rw [hop, hfunct]; rfl) (and_careMask_rs w).symm
  case jalr => exact Eq.trans (by rw [hop, hfunct]; rfl) (and_careMask_rdRs w).symm
  case syscall => exact Eq.trans (by rw [hop, hfunct]; rfl) (and_functMask w).symm
  all_goals exact Eq.trans (by rw [hop, hfunct]; rfl) (and_careMask_threeRegs w).symm

/-- The fields of an encoding hold the operands. -/
theorem Instr.readFrom_encode {i : Instr} (wf : i.wf = true) : i.readFrom (encode i) = i := by
  cases i
  case sll rd rt shamt | srl rd rt shamt | sra rd rt shamt =>
    have small : shamt % 32 = shamt := Nat.mod_eq_of_lt (of_decide_eq_true wf)
    simp [Instr.readFrom, encode, rtOf, rdOf, shamtOf, small]
  all_goals simp [Instr.readFrom, encode, rsOf, rtOf, rdOf]

theorem decode_encode {i : Instr} (wf : i.wf = true) : decode (encode i) = .instr i := by
  rw [decode_of_row (encode_and_rowMask i), Instr.readFrom_encode wf]

/-- Settles O42: the encoder writes the instruction's row and operands, and decoding reads both back. -/
theorem decodeOfEncode : Obligations.DecodeOfEncode := by
  unfold Obligations.DecodeOfEncode
  intro i wf
  refine ⟨decode_encode wf, fun rest => ?_⟩
  rw [decodeBytes_bytesOfWord, decode_encode wf]

/-! ## What a decoded word holds -/

theorem row_of_decodeFunct {w : Word} {i : Instr} (hop : fieldOp w = 0x00#6) (h : decodeFunct w = .instr i) :
    w &&& i.rowMask = i.rowMatch ∧ i.readFrom w = i := by
  have row (funct : BitVec 6) (hfunct : fieldFunct w = funct) : w &&& 0xFC00003F = rType 0#6 0 0 0 0 funct := by
    rw [and_functMask, hop, hfunct]
  unfold decodeFunct at h
  split at h <;> cases h
  all_goals exact ⟨(row _ ‹_›).trans rfl, rfl⟩

theorem row_of_decodeSelector {w : Word} {i : Instr} (hop : fieldOp w = 0x01#6) (h : decodeSelector w = .instr i) :
    w &&& i.rowMask = i.rowMatch ∧ i.readFrom w = i := by
  have row (rt : BitVec 5) (hrt : fieldRt w = rt) : w &&& 0xFC1F0000 = iType 1#6 0 (regOfField rt) 0 := by
    rw [and_selectorMask, hop, rtOf, hrt]
  unfold decodeSelector at h
  split at h <;> cases h
  all_goals exact ⟨(row _ ‹_›).trans rfl, rfl⟩

/-- A word that decodes to an instruction has the fixed bits of its row and holds its operands. -/
theorem row_of_decode {w : Word} {i : Instr} (h : decode w = .instr i) : w &&& i.rowMask = i.rowMatch ∧ i.readFrom w = i := by
  have row (op : BitVec 6) (hop : fieldOp w = op) : w &&& 0xFC000000 = iType op 0 0 0 := by rw [and_opcodeMask, hop]
  unfold decode at h
  split at h
  case h_1 hop => exact row_of_decodeFunct hop h
  case h_2 hop => exact row_of_decodeSelector hop h
  all_goals cases h
  all_goals exact ⟨(row _ ‹_›).trans rfl, rfl⟩

/-- The care mask takes in the row mask. -/
theorem Instr.careMask_and_rowMask (i : Instr) : i.careMask &&& i.rowMask = i.rowMask := by
  cases i <;> simp only [Instr.careMask, Instr.rowMask] <;> decide

/-- A word with the care bits of an instruction's encoding has the fixed bits of its row. -/
theorem row_of_careBits {w : Word} {i : Instr} (care : w &&& i.careMask = encode i) : w &&& i.rowMask = i.rowMatch := by
  rw [← i.careMask_and_rowMask, ← BitVec.and_assoc, care, encode_and_rowMask]

/-- Settles O43: the care bits fix the row and, since decoding inverts the encoder on well-formed instructions, the operands. -/
theorem decodeIffCareBitsMatch : Obligations.DecodeIffCareBitsMatch := by
  unfold Obligations.DecodeIffCareBitsMatch
  intro w i
  constructor
  · intro h
    obtain ⟨row, operands⟩ := row_of_decode h
    refine ⟨operands ▸ i.wf_readFrom w, ?_⟩
    rw [← encode_readFrom row, operands]
  · rintro ⟨wf, care⟩
    have row := row_of_careBits care
    have same : encode (i.readFrom w) = encode i := (encode_readFrom row).trans care
    calc decode w
        = .instr (i.readFrom w) := decode_of_row row
      _ = decode (encode (i.readFrom w)) := (decode_encode (i.wf_readFrom w)).symm
      _ = decode (encode i) := by rw [same]
      _ = .instr i := decode_encode wf

end Sys2Proof
end

section
/-! The unassigned words (the lists after R62 to R64): the partition of all words, and the no-op of R89. -/

namespace Sys2Proof.Machine

/-- R62: a value of the opcode that is on no row is on the list. -/
theorem opcode_listed : ∀ op : BitVec 6, op ∉ [0x00#6, 0x01#6, 0x02#6, 0x03#6, 0x04#6, 0x05#6, 0x06#6, 0x07#6, 0x08#6, 0x09#6, 0x0A#6, 0x0B#6,
      0x0C#6, 0x0D#6, 0x0E#6, 0x0F#6, 0x20#6, 0x21#6, 0x23#6, 0x24#6, 0x25#6, 0x28#6, 0x29#6, 0x2B#6] →
    op.toNat ∈ [0x10, 0x11, 0x12, 0x13, 0x14, 0x15, 0x16, 0x17, 0x18, 0x19, 0x1A, 0x1B, 0x1C, 0x1D, 0x1E, 0x1F, 0x22, 0x26, 0x27,
      0x2A, 0x2C, 0x2D, 0x2E, 0x2F, 0x30, 0x31, 0x32, 0x33, 0x34, 0x35, 0x36, 0x37, 0x38, 0x39, 0x3A, 0x3B, 0x3C, 0x3D, 0x3E, 0x3F] := by
  decide

/-- R63: and so for the function code. -/
theorem funct_listed : ∀ funct : BitVec 6, funct ∉ [0x00#6, 0x02#6, 0x03#6, 0x04#6, 0x06#6, 0x07#6, 0x08#6, 0x09#6, 0x0C#6, 0x10#6, 0x11#6,
      0x12#6, 0x13#6, 0x18#6, 0x19#6, 0x1A#6, 0x1B#6, 0x20#6, 0x21#6, 0x22#6, 0x23#6, 0x24#6, 0x25#6, 0x26#6, 0x27#6, 0x2A#6, 0x2B#6] →
    funct.toNat ∈ [0x01, 0x05, 0x0A, 0x0B, 0x0D, 0x0E, 0x0F, 0x14, 0x15, 0x16, 0x17, 0x1C, 0x1D, 0x1E, 0x1F, 0x28, 0x29, 0x2C,
      0x2D, 0x2E, 0x2F, 0x30, 0x31, 0x32, 0x33, 0x34, 0x35, 0x36, 0x37, 0x38, 0x39, 0x3A, 0x3B, 0x3C, 0x3D, 0x3E, 0x3F] := by
  decide

/-- R64: and for the selector. -/
theorem selector_listed : ∀ rt : BitVec 5, rt ∉ [0x00#5, 0x01#5, 0x10#5, 0x11#5] → rt.toNat ∉ [0x00, 0x01, 0x10, 0x11] := by
  decide

/-- R62, R63, R64: the values that a level of the dispatch finds nothing for are the ones of its list. -/
theorem unassignedWord_of_decode {w : Word} {u : Unassigned} (h : decode w = .unassigned u) : UnassignedWord w := by
  unfold decode at h
  split at h
  case h_1 hop =>
    unfold decodeFunct at h
    split at h <;> cases h
    exact .inr (.inl ⟨by rw [hop]; rfl, funct_listed _ (by simp_all)⟩)
  case h_2 hop =>
    unfold decodeSelector at h
    split at h <;> cases h
    exact .inr (.inr ⟨by rw [hop]; rfl, selector_listed _ (by simp_all)⟩)
  all_goals cases h
  exact .inl (opcode_listed _ (by simp_all))

/-- No value of those lists selects an instruction. -/
theorem not_unassignedWord_of_decode {w : Word} {i : Instr} (h : decode w = .instr i) : ¬ UnassignedWord w := by
  unfold decode at h
  split at h
  case h_1 hop =>
    unfold decodeFunct at h
    split at h <;> cases h
    all_goals simp [UnassignedWord, *]
  case h_2 hop =>
    unfold decodeSelector at h
    split at h <;> cases h
    all_goals simp [UnassignedWord, *]
  all_goals cases h
  all_goals simp [UnassignedWord, *]

/-- R66, R90: the lists are the words that the decoder gives the value for an unassigned word. -/
theorem unassignedWord_iff (w : Word) : UnassignedWord w ↔ ∃ u, decode w = .unassigned u := by
  refine ⟨fun listed => ?_, fun ⟨_, h⟩ => unassignedWord_of_decode h⟩
  cases h : decode w with
  | instr i => exact absurd listed (not_unassignedWord_of_decode h)
  | unassigned u => exact ⟨u, rfl⟩

/-- Settles O41: a word with the fixed bits of a row decodes to the instruction of that row, so no word has those of two rows, and no
unassigned word has those of one. -/
theorem opcodeMapPartitionsWords : Obligations.OpcodeMapPartitionsWords := by
  unfold Obligations.OpcodeMapPartitionsWords
  intro w
  constructor
  · intro listed
    obtain ⟨u, unassigned⟩ := (unassignedWord_iff w).mp listed
    refine ⟨⟨u, unassigned⟩, fun i row => ?_⟩
    cases unassigned.symm.trans (decode_of_row row)
  · intro unlisted
    cases h : decode w with
    | unassigned u => exact absurd (unassignedWord_of_decode h) unlisted
    | instr i =>
      refine ⟨i, rfl, (row_of_decode h).1, fun i' row' => ?_⟩
      cases h.symm.trans (decode_of_row row')
      exact ⟨(i'.rowMatch_readFrom w).symm, (i'.rowMask_readFrom w).symm⟩

/-- Settles O44: each of the eight words is decoded, field by field. -/
theorem sampleWordsDecode : Obligations.SampleWordsDecode := by
  unfold Obligations.SampleWordsDecode
  decide

/-- R89: a step on a word of the lists ends in the default next state. -/
theorem step_of_unassignedWord {s : State} (run : s.run = true) (listed : UnassignedWord s.fetchWord) : step s = .next s.defaultNext := by
  obtain ⟨u, unassigned⟩ := (unassignedWord_iff _).mp listed
  rw [step_of_run run, cycle_of_unassigned unassigned]

/-- Settles O40: the default next state differs from the state in the PC alone. -/
theorem unassignedWordsAreNoOps : Obligations.UnassignedWordsAreNoOps := by
  unfold Obligations.UnassignedWordsAreNoOps
  intro s run listed
  exact ⟨s.defaultNext, step_of_unassignedWord run listed, setsPc_of s (s.pc + 4), rfl⟩

end Sys2Proof.Machine
end

section
/-! The core and its memory (R4, R32, R92): every cycle completes, what a cycle does with memory is reads and at most one `write_word`, and the
memory component enters through the words it returns. -/

namespace Sys2Proof.Machine

/-! ## Every cycle completes -/

section
variable {μ : Type} (M : MemComponent μ)

/-- R93: a cycle ends in a next state whose memory is the old contents or one `write_word` of them. -/
theorem cycleOn_next (s : State μ) : ∃ t, cycleOn M s = .next t ∧ (t.mem = s.mem ∨ ∃ a v, t.mem = M.writeWord s.mem a v) := by
  cases h : decode (s.fetchFrom M) with
  | instr i =>
    obtain ⟨t, answers, memory, _⟩ := execOn_next M i s
    exact ⟨t, (cycleOn_of_instr M h).trans answers, memory⟩
  | unassigned u => exact ⟨s.defaultNext, cycleOn_of_unassigned M h, .inl rfl⟩

theorem stepOn_of_run {s : State μ} (run : s.run = true) : stepOn M s = cycleOn M s := by simp only [stepOn, run, if_true]

theorem stepOn_of_halted {s : State μ} (halted : s.run = false) : stepOn M s = .refused .halted := by simp [stepOn, halted]

end

theorem cycle_next (s : State) : ∃ t, cycle s = .next t ∧ (t.mem = s.mem ∨ ∃ a v, t.mem = MEM.writeWord s.mem a v) := by
  rw [cycle_eq_cycleOn]
  exact cycleOn_next MEM s

/-- Settles O47: every instruction completes, so a cycle does, and a step is the cycle exactly while RUN = 1. -/
theorem everyCycleCompletes : Obligations.EveryCycleCompletes := by
  unfold Obligations.EveryCycleCompletes
  refine ⟨fun i s => ?_, fun s => ?_, fun s => ⟨fun ⟨_, h⟩ => run_of_step_next h, fun run => ?_⟩⟩
  · obtain ⟨t, answers, _⟩ := exec_next i s
    exact ⟨t, answers⟩
  · obtain ⟨t, answers, _⟩ := cycle_next s
    exact ⟨t, answers⟩
  · obtain ⟨t, answers, _⟩ := cycle_next s
    exact ⟨t, (step_of_run run).trans answers⟩

/-! ## The canonical form -/

/-- `write_word` of MEM_LE keeps the canonical form, so a cycle does. -/
theorem stateInv_of_cycle {s t : State} (inv : StateInv s) (h : cycle s = .next t) : StateInv t := by
  obtain ⟨u, answers, memory⟩ := cycle_next s
  cases answers.symm.trans h
  rcases memory with same | ⟨a, v, written⟩
  · rw [StateInv, same]; exact inv
  · rw [StateInv, written]; exact Memory.wf_writeWordLE inv a v

theorem stateInv_of_step {s t : State} (inv : StateInv s) (h : step s = .next t) : StateInv t :=
  stateInv_of_cycle inv ((step_of_run (run_of_step_next h)).symm.trans h)

/-- Settles O52: a step is a cycle, and a cycle writes memory through `write_word` only. -/
theorem stepKeepsMemoryCanonical : Obligations.StepKeepsMemoryCanonical := by
  unfold Obligations.StepKeepsMemoryCanonical
  exact fun _ _ inv h => stateInv_of_step inv h

/-- Settles O51: the empty list is in canonical form. -/
theorem resetMeetsInvariant : Obligations.ResetMeetsInvariant := by
  unfold Obligations.ResetMeetsInvariant
  exact Memory.wf_nil

/-! ## The same state over another memory -/

section
variable {μ ν : Type}

/-- All of a state but its memory, with contents `n` of another memory component. -/
def State.withMem (s : State μ) (n : ν) : State ν := { s with mem := n }

@[simp] theorem State.withMem_pc (s : State μ) (n : ν) : (s.withMem n).pc = s.pc := rfl
@[simp] theorem State.withMem_mem (s : State μ) (n : ν) : (s.withMem n).mem = n := rfl
@[simp] theorem State.withMem_reg (s : State μ) (n : ν) (r : RegIdx) : (s.withMem n).reg r = s.reg r := rfl
@[simp] theorem effAddr_withMem (s : State μ) (n : ν) (rs : RegIdx) (imm : Half) : effAddr (s.withMem n) rs imm = effAddr s rs imm := rfl

theorem sameCore_withMem (s : State μ) (n : ν) : SameCore s (s.withMem n) := ⟨rfl, fun _ => rfl, ⟨rfl, rfl⟩, rfl⟩

/-- The states that agree with `s` are `s` over other memories. -/
theorem SameCore.eq_withMem {s : State μ} {t : State ν} (same : SameCore s t) : t = s.withMem t.mem := by
  obtain ⟨hpc, hregs, ⟨hhi, hlo⟩, hrun⟩ := same
  exact State.ext_reg hpc hregs hhi hlo hrun rfl

theorem State.branchIf_withMem (next : State μ) (n : ν) (taken : Bool) (pc : Word) (imm : Half) :
    (next.withMem n).branchIf taken pc imm = (next.branchIf taken pc imm).withMem n := by
  cases taken <;> rfl

variable (M : MemComponent μ) (N : MemComponent ν)

/-- An instruction that is no load and no store does the same whatever the memory, and leaves the memory alone. -/
theorem execOn_withMem_of_not_memory {i : Instr} (noLoad : ¬ i.isLoad) (noStore : ¬ i.isStore) (s : State μ) (n : ν) :
    ∃ s', execOn M i s = .next s' ∧ s'.mem = s.mem ∧ execOn N i (s.withMem n) = .next (s'.withMem n) := by
  cases i
  case lb rt imm rs => exact absurd ⟨rt, imm, rs, .inl rfl⟩ noLoad
  case lh rt imm rs => exact absurd ⟨rt, imm, rs, .inr (.inl rfl)⟩ noLoad
  case lw rt imm rs => exact absurd ⟨rt, imm, rs, .inr (.inr (.inl rfl))⟩ noLoad
  case lbu rt imm rs => exact absurd ⟨rt, imm, rs, .inr (.inr (.inr (.inl rfl)))⟩ noLoad
  case lhu rt imm rs => exact absurd ⟨rt, imm, rs, .inr (.inr (.inr (.inr rfl)))⟩ noLoad
  case sb rt imm rs => exact absurd ⟨rt, imm, rs, .inl rfl⟩ noStore
  case sh rt imm rs => exact absurd ⟨rt, imm, rs, .inr (.inl rfl)⟩ noStore
  case sw rt imm rs => exact absurd ⟨rt, imm, rs, .inr (.inr rfl)⟩ noStore
  case syscall =>
    refine ⟨_, rfl, by split <;> rfl, congrArg Host.Outcome.next ?_⟩
    rw [apply_ite (State.withMem · n)]
    rfl
  case beq | bne | blez | bgtz | bltz | bgez =>
    exact ⟨_, rfl, State.branchIf_mem .., congrArg Host.Outcome.next (s.defaultNext.branchIf_withMem n ..)⟩
  case bltzal | bgezal =>
    exact ⟨_, rfl, State.branchIf_mem .., congrArg Host.Outcome.next ((s.defaultNext.setReg linkReg _).branchIf_withMem n ..)⟩
  all_goals exact ⟨_, rfl, rfl, rfl⟩

/-- A load does the same over memories that return the same words, and leaves the memory alone. -/
theorem execOn_withMem_of_load {i : Instr} (load : i.isLoad) {s : State μ} {n : ν} (same : ∀ a, M.readWord s.mem a = N.readWord n a) :
    ∃ s', execOn M i s = .next s' ∧ s'.mem = s.mem ∧ execOn N i (s.withMem n) = .next (s'.withMem n) := by
  have read1 (a : Word) : M.memRead1 s.mem a = N.memRead1 n a := by rw [MemComponent.memRead1, same]; rfl
  have read2 (a : Word) : M.memRead2 s.mem a = N.memRead2 n a := by rw [MemComponent.memRead2, same]; rfl
  obtain ⟨rt, imm, rs, rfl | rfl | rfl | rfl | rfl⟩ := load
  · exact ⟨s.defaultNext.setReg rt (sext8 (N.memRead1 n (effAddr s rs imm))), by rw [← read1]; rfl, rfl, rfl⟩
  · exact ⟨s.defaultNext.setReg rt (sext16 (N.memRead2 n (effAddr s rs imm))), by rw [← read2]; rfl, rfl, rfl⟩
  · exact ⟨s.defaultNext.setReg rt (N.readWord n (effAddr s rs imm)), by rw [← same]; rfl, rfl, rfl⟩
  · exact ⟨s.defaultNext.setReg rt (zext8 (N.memRead1 n (effAddr s rs imm))), by rw [← read1]; rfl, rfl, rfl⟩
  · exact ⟨s.defaultNext.setReg rt (zext16 (N.memRead2 n (effAddr s rs imm))), by rw [← read2]; rfl, rfl, rfl⟩

/-! ## The word a store writes -/

/-- The word whose low `n` bits are those of `v` and whose other bits are those of `old` (R39, R40). -/
def mergedWord (old v : Word) (n : Nat) : Word := BitVec.ofNat 32 (old.toNat / 2 ^ n * 2 ^ n + v.toNat % 2 ^ n)

theorem getLsbD_mergedWord (old v : Word) (n : Nat) {i : Nat} (hi : i < 32) :
    (mergedWord old v n).getLsbD i = if i < n then v.getLsbD i else old.getLsbD i := by
  have low : v.toNat % 2 ^ n < 2 ^ n := Nat.mod_lt _ (Nat.two_pow_pos n)
  rw [mergedWord, BitVec.getLsbD_ofNat, Nat.mul_comm, Nat.testBit_two_pow_mul_add _ low, Nat.testBit_mod_two_pow, Nat.testBit_div_two_pow]
  by_cases below : i < n
  · simp [below, hi]; rfl
  · simp [below, hi, Nat.sub_add_cancel (Nat.le_of_not_lt below)]; rfl

theorem mergeLow_eq_mergedWord (old v : Word) (n : Nat) :
    (old &&& (BitVec.allOnes 32 <<< n)) ||| (v.extractLsb' 0 n).setWidth 32 = mergedWord old v n := by
  apply BitVec.eq_of_getLsbD_eq
  intro i hi
  rw [getLsbD_mergeLow old _ hi, getLsbD_mergedWord old v n hi]
  by_cases below : i < n
  · simp [below]
  · simp [below]

theorem execOn_sb (rt : RegIdx) (imm : Half) (rs : RegIdx) (s : State μ) : execOn M (.sb rt imm rs) s = .next (s.defaultNext.withMem
    (M.writeWord s.mem (effAddr s rs imm) (mergedWord (M.readWord s.mem (effAddr s rs imm)) (s.reg rt) 8))) := by
  rw [← mergeLow_eq_mergedWord, ← MemComponent.memWrite1_eq_mergeLow]
  rfl

theorem execOn_sh (rt : RegIdx) (imm : Half) (rs : RegIdx) (s : State μ) : execOn M (.sh rt imm rs) s = .next (s.defaultNext.withMem
    (M.writeWord s.mem (effAddr s rs imm) (mergedWord (M.readWord s.mem (effAddr s rs imm)) (s.reg rt) 16))) := by
  rw [← mergeLow_eq_mergedWord, ← MemComponent.memWrite2_eq_mergeLow]
  rfl

theorem execOn_sw (rt : RegIdx) (imm : Half) (rs : RegIdx) (s : State μ) : execOn M (.sw rt imm rs) s = .next (s.defaultNext.withMem
    (M.writeWord s.mem (effAddr s rs imm) (s.reg rt))) := rfl

/-- The address and the word of the one `write_word` of a store (R171 to R173). -/
def stored (s : State μ) : Instr → Option (Word × Word)
  | .sb rt imm rs => some (effAddr s rs imm, mergedWord (M.readWord s.mem (effAddr s rs imm)) (s.reg rt) 8)
  | .sh rt imm rs => some (effAddr s rs imm, mergedWord (M.readWord s.mem (effAddr s rs imm)) (s.reg rt) 16)
  | .sw rt imm rs => some (effAddr s rs imm, s.reg rt)
  | _ => none

theorem execOn_of_stored {i : Instr} {s : State μ} {a v : Word} (h : stored M s i = some (a, v)) :
    execOn M i s = .next (s.defaultNext.withMem (M.writeWord s.mem a v)) := by
  cases i <;> cases h
  case sb.refl rt imm rs => exact execOn_sb M rt imm rs s
  case sh.refl rt imm rs => exact execOn_sh M rt imm rs s
  case sw.refl rt imm rs => exact execOn_sw M rt imm rs s

theorem stored_of_isStore {i : Instr} (store : i.isStore) (s : State μ) : ∃ a v, stored M s i = some (a, v) := by
  obtain ⟨rt, imm, rs, rfl | rfl | rfl⟩ := store <;> exact ⟨_, _, rfl⟩

theorem isStore_of_stored {i : Instr} {s : State μ} {a v : Word} (h : stored M s i = some (a, v)) : i.isStore := by
  cases i <;> cases h
  case sb.refl rt imm rs => exact ⟨rt, imm, rs, .inl rfl⟩
  case sh.refl rt imm rs => exact ⟨rt, imm, rs, .inr (.inl rfl)⟩
  case sw.refl rt imm rs => exact ⟨rt, imm, rs, .inr (.inr rfl)⟩

variable {M N}

/-- The merged word is made of the word the memory returns, so it is the same over memories that return the same words. -/
theorem stored_withMem {s : State μ} {n : ν} (reads : ∀ a, M.readWord s.mem a = N.readWord n a) (i : Instr) :
    stored N (s.withMem n) i = stored M s i := by
  cases i
  case sb | sh => simp only [stored, effAddr_withMem, State.withMem_reg, State.withMem_mem, reads]
  all_goals rfl

/-! ## A cycle over two memories that return the same words -/

theorem cycleOn_withMem_of_noStore {s : State μ} {n : ν} (reads : ∀ a, M.readWord s.mem a = N.readWord n a)
    (noStore : ∀ i, decode (s.fetchFrom M) = .instr i → ¬ i.isStore) :
    ∃ s', cycleOn M s = .next s' ∧ s'.mem = s.mem ∧ cycleOn N (s.withMem n) = .next (s'.withMem n) := by
  have fetch : (s.withMem n).fetchFrom N = s.fetchFrom M := (reads s.pc).symm
  cases h : decode (s.fetchFrom M) with
  | unassigned u => exact ⟨s.defaultNext, cycleOn_of_unassigned M h, rfl, cycleOn_of_unassigned N (fetch ▸ h)⟩
  | instr i =>
    rw [cycleOn_of_instr M h, cycleOn_of_instr N (fetch ▸ h)]
    by_cases load : i.isLoad
    · exact execOn_withMem_of_load M N load reads
    · exact execOn_withMem_of_not_memory M N load (noStore i h) s n

theorem cycleOn_withMem_of_stored {s : State μ} {n : ν} (reads : ∀ a, M.readWord s.mem a = N.readWord n a) {i : Instr} {a v : Word}
    (h : decode (s.fetchFrom M) = .instr i) (hi : stored M s i = some (a, v)) :
    cycleOn M s = .next (s.defaultNext.withMem (M.writeWord s.mem a v)) ∧
      cycleOn N (s.withMem n) = .next (s.defaultNext.withMem (N.writeWord n a v)) := by
  have fetch : (s.withMem n).fetchFrom N = s.fetchFrom M := (reads s.pc).symm
  rw [cycleOn_of_instr M h, cycleOn_of_instr N (fetch ▸ h), execOn_of_stored M hi,
    execOn_of_stored N ((stored_withMem reads i).trans hi)]
  exact ⟨rfl, rfl⟩

/-- The cycles of both complete and agree; a store is the same `write_word` in both, and anything else leaves both memories alone. -/
theorem cycleOn_withMem {s : State μ} {n : ν} (reads : ∀ a, M.readWord s.mem a = N.readWord n a) :
    ∃ s' t', cycleOn M s = .next s' ∧ cycleOn N (s.withMem n) = .next t' ∧ SameCore s' t' ∧
      (∀ i a v, decode (s.fetchFrom M) = .instr i → stored M s i = some (a, v) →
        s'.mem = M.writeWord s.mem a v ∧ t'.mem = N.writeWord n a v) ∧
      ((∀ i, decode (s.fetchFrom M) = .instr i → ¬ i.isStore) → s'.mem = s.mem ∧ t'.mem = n) := by
  by_cases noStore : ∀ i, decode (s.fetchFrom M) = .instr i → ¬ i.isStore
  · obtain ⟨s', left, memory, right⟩ := cycleOn_withMem_of_noStore reads noStore
    exact ⟨s', _, left, right, sameCore_withMem s' n, fun i a v h hi => absurd (isStore_of_stored M hi) (noStore i h), fun _ => ⟨memory, rfl⟩⟩
  · push Not at noStore
    obtain ⟨i, h, store⟩ := noStore
    obtain ⟨a, v, hi⟩ := stored_of_isStore M store s
    obtain ⟨left, right⟩ := cycleOn_withMem_of_stored reads h hi
    refine ⟨_, _, left, right, sameCore_withMem (s.defaultNext.withMem _) _, fun i' a' v' h' hi' => ?_, fun none => absurd store (none i h)⟩
    cases h.symm.trans h'
    cases hi.symm.trans hi'
    exact ⟨rfl, rfl⟩

end

theorem SameCore.run_eq {μ ν : Type} {s : State μ} {t : State ν} (same : SameCore s t) : t.run = s.run := by
  obtain ⟨_, _, _, run⟩ := same
  exact run

/-- R31, R32: a relation between contents that reads cannot tell apart and writes keep is kept by a step of both. -/
theorem stepOn_related {μ ν : Type} (M : MemComponent μ) (N : MemComponent ν) {R : μ → ν → Prop}
    (reads : ∀ m n, R m n → ∀ a, M.readWord m a = N.readWord n a)
    (writes : ∀ m n, R m n → ∀ a v, R (M.writeWord m a v) (N.writeWord n a v))
    {s : State μ} {t : State ν} (same : SameCore s t) (related : R s.mem t.mem) (run : s.run = true) :
    ∃ s' t', stepOn M s = .next s' ∧ stepOn N t = .next t' ∧ SameCore s' t' ∧ R s'.mem t'.mem := by
  obtain ⟨s', t', left, right, same', stores, others⟩ := cycleOn_withMem (reads _ _ related)
  rw [← same.eq_withMem] at right
  refine ⟨s', t', (stepOn_of_run M run).trans left, (stepOn_of_run N (same.run_eq.trans run)).trans right, same', ?_⟩
  by_cases noStore : ∀ i, decode (s.fetchFrom M) = .instr i → ¬ i.isStore
  · obtain ⟨hs, ht⟩ := others noStore
    rw [hs, ht]; exact related
  · push Not at noStore
    obtain ⟨i, h, store⟩ := noStore
    obtain ⟨a, v, hi⟩ := stored_of_isStore M store s
    obtain ⟨hs, ht⟩ := stores i a v h hi
    rw [hs, ht]; exact writes _ _ related a v

/-- Settles O58: the cycles of both read alike and write the same word at the same address, which keeps the relation; holding the bytes of
R33's function is such a relation. -/
theorem stepSeesMemoryThroughItsPrimitives : Obligations.StepSeesMemoryThroughItsPrimitives := by
  unfold Obligations.StepSeesMemoryThroughItsPrimitives
  constructor
  · intro μ ν M N R reads writes s t same related
    exact ⟨stepOn_related M N reads writes same related,
      fun halted => ⟨stepOn_of_halted M halted, stepOn_of_halted N (same.run_eq.trans halted)⟩⟩
  · intro s t inv same holds run
    obtain ⟨s', t', left, right, same', holds'⟩ :=
      stepOn_related MEM memBytes (R := Memory.Holds) (fun _ _ h => h.readWord) (fun _ _ h => h.writeWord) same holds run
    rw [← step_eq_stepOn] at left
    exact ⟨s', t', left, right, stateInv_of_step inv left, same', holds'⟩

/-- Settles O60: the core sees a memory component through the words it returns, and every store is one `write_word` of the merged word. -/
theorem everyMemoryRunsTheSameCore : Obligations.EveryMemoryRunsTheSameCore := by
  unfold Obligations.EveryMemoryRunsTheSameCore
  refine ⟨exec_eq_execOn, cycle_eq_cycleOn, step_eq_stepOn, fun μ ν M N s t same => ⟨fun i noLoad noStore => ?_, fun reads => ?_⟩⟩
  · obtain ⟨s', left, memory, right⟩ := execOn_withMem_of_not_memory M N noLoad noStore s t.mem
    rw [← same.eq_withMem] at right
    exact ⟨s', _, left, right, sameCore_withMem s' t.mem, memory, rfl⟩
  · obtain ⟨s', t', left, right, same', stores, others⟩ := cycleOn_withMem reads
    rw [← same.eq_withMem] at right
    exact ⟨s', t', left, right, same', fun rt imm rs => ⟨fun h => stores _ _ _ h rfl, fun h => stores _ _ _ h rfl, fun h => stores _ _ _ h rfl⟩,
      others⟩

end Sys2Proof.Machine
end

section
/-! Loads and stores over any memory component (R165 to R174), and the fetch (R81): one word read, or one word written, at
`x[rs] + extended_imm`. -/

namespace Sys2Proof.Machine

/-! ## What an encoding line says -/

/-- R62 to R64: a word with the fixed bits of a row decodes to the instruction of that row, its operands read from the fields. -/
theorem encodedAs_row (i : Instr) : EncodedAs i.rowMask i.rowMatch (fun w => i.readFrom w) := fun _ h => decode_of_row h

/-! ## Extensions as numbers -/

theorem sext8_toInt (b : Byte) : (sext8 b).toInt = b.toInt := BitVec.toInt_signExtend_of_le (by omega)

theorem sext16_toInt (h : Half) : (sext16 h).toInt = h.toInt := BitVec.toInt_signExtend_of_le (by omega)

theorem zext8_toNat (b : Byte) : (zext8 b).toNat = b.toNat := BitVec.toNat_setWidth_of_le (by omega)

theorem zext16_toNat (h : Half) : (zext16 h).toNat = h.toNat := BitVec.toNat_setWidth_of_le (by omega)

theorem effAddr_eq {μ : Type} (s : State μ) (rs : RegIdx) (imm : Half) : effAddr s rs imm = s.reg rs + BitVec.ofInt 32 imm.toInt := by
  rw [effAddr, extendedImm_eq_ofInt]

/-! ## The eight instructions -/

section
variable {μ : Type} (M : MemComponent μ) (rt : RegIdx) (imm : Half) (rs : RegIdx) (s : State μ)

theorem completesOn_lb : CompletesOn M (.lb rt imm rs) s (WritesRegOn s rt fun v =>
    v.toInt = (BitVec.ofNat 8 (M.readWord s.mem (s.reg rs + BitVec.ofInt 32 imm.toInt)).toNat).toInt) :=
  ⟨_, rfl, writesRegOn_of s rt (by rw [← effAddr_eq, sext8_toInt]; rfl)⟩

theorem completesOn_lh : CompletesOn M (.lh rt imm rs) s (WritesRegOn s rt fun v =>
    v.toInt = (BitVec.ofNat 16 (M.readWord s.mem (s.reg rs + BitVec.ofInt 32 imm.toInt)).toNat).toInt) :=
  ⟨_, rfl, writesRegOn_of s rt (by rw [← effAddr_eq, sext16_toInt]; rfl)⟩

theorem completesOn_lw : CompletesOn M (.lw rt imm rs) s (WritesRegOn s rt fun v =>
    v = M.readWord s.mem (s.reg rs + BitVec.ofInt 32 imm.toInt)) :=
  ⟨_, rfl, writesRegOn_of s rt (by rw [← effAddr_eq]; rfl)⟩

theorem completesOn_lbu : CompletesOn M (.lbu rt imm rs) s (WritesRegOn s rt fun v =>
    v.toNat = (M.readWord s.mem (s.reg rs + BitVec.ofInt 32 imm.toInt)).toNat % 2 ^ 8) :=
  ⟨_, rfl, writesRegOn_of s rt (by rw [← effAddr_eq, zext8_toNat]; rfl)⟩

theorem completesOn_lhu : CompletesOn M (.lhu rt imm rs) s (WritesRegOn s rt fun v =>
    v.toNat = (M.readWord s.mem (s.reg rs + BitVec.ofInt 32 imm.toInt)).toNat % 2 ^ 16) :=
  ⟨_, rfl, writesRegOn_of s rt (by rw [← effAddr_eq, zext16_toNat]; rfl)⟩

/-- R171 to R173: a store writes its one word and nothing else. -/
theorem completesOn_of_stored {i : Instr} {a v : Word} (h : stored M s i = some (a, v)) :
    CompletesOn M i s (WritesMemory s (M.writeWord s.mem a v)) :=
  ⟨_, execOn_of_stored M h, writesMemory_of s _⟩

end

/-- Settles O59: each load writes rt what it makes of the one word read, each store is its one `write_word`, and a step is the cycle. -/
theorem loadsStoresAndFetchOverEveryMemory : Obligations.LoadsStoresAndFetchOverEveryMemory := by
  unfold Obligations.LoadsStoresAndFetchOverEveryMemory
  intro μ M s
  refine ⟨fun rt imm rs => ⟨completesOn_lb M rt imm rs s, completesOn_lh M rt imm rs s, completesOn_lw M rt imm rs s,
    completesOn_lbu M rt imm rs s, completesOn_lhu M rt imm rs s, ?sb, ?sh, ?sw⟩, fun run i h => ?instr, fun run u h => ?unassigned⟩
  case sb | sh | sw => exact completesOn_of_stored M s (by rw [← effAddr_eq]; rfl)
  case instr => rw [stepOn_of_run M run, cycleOn_of_instr M h]
  case unassigned => rw [stepOn_of_run M run, cycleOn_of_unassigned M h]; rfl

/-! ## The machine that runs -/

/-- The machine that runs completes with what the core at `MEM` completes with. -/
theorem CompletesOn.completes {i : Instr} {s : State} {P : State → Prop} (h : CompletesOn MEM i s P) : Completes i s P := by
  obtain ⟨t, answers, holds⟩ := h
  exact ⟨t, (exec_eq_execOn i s).trans answers, holds⟩

theorem Completes.mono {i : Instr} {s : State} {P Q : State → Prop} (h : Completes i s P) (weaken : ∀ t, P t → Q t) : Completes i s Q := by
  obtain ⟨t, answers, holds⟩ := h
  exact ⟨t, answers, weaken t holds⟩

/-- The same contents of memory read alike. -/
theorem WritesRegOn.writesReg {s t : State} {rd : RegIdx} {P : Word → Prop} (h : WritesRegOn s rd P t) : WritesReg s rd P t := by
  obtain ⟨value, regs, hiLo, run, mem, pc⟩ := h
  exact ⟨value, regs, hiLo, run, fun a => by rw [State.byteAt_eq, State.byteAt_eq, mem], pc⟩

theorem CompletesOn.completes_writesReg {i : Instr} {s : State} {rd : RegIdx} {P : Word → Prop} (h : CompletesOn MEM i s (WritesRegOn s rd P)) :
    Completes i s (WritesReg s rd P) :=
  h.completes.mono fun _ => WritesRegOn.writesReg

/-- Settles O28: the loads over any memory, at `MEM`. -/
theorem loadResults : Obligations.LoadResults := by
  unfold Obligations.LoadResults
  refine ⟨encodedAs_row (.lb 0 0 0), encodedAs_row (.lh 0 0 0), encodedAs_row (.lw 0 0 0), encodedAs_row (.lbu 0 0 0),
    encodedAs_row (.lhu 0 0 0), fun rt imm rs s => ⟨?_, ?_, ?_, ?_, ?_⟩⟩
  · exact (completesOn_lb MEM rt imm rs s).completes_writesReg
  · exact (completesOn_lh MEM rt imm rs s).completes_writesReg
  · exact (completesOn_lw MEM rt imm rs s).completes_writesReg
  · exact (completesOn_lbu MEM rt imm rs s).completes_writesReg
  · exact (completesOn_lhu MEM rt imm rs s).completes_writesReg

/-- Settles O30: the stores over any memory, at `MEM`. -/
theorem storeResults : Obligations.StoreResults := by
  unfold Obligations.StoreResults
  refine ⟨encodedAs_row (.sb 0 0 0), encodedAs_row (.sh 0 0 0), encodedAs_row (.sw 0 0 0), fun rt imm rs s => ⟨?sb, ?sh, ?sw⟩⟩
  case sb | sh | sw => exact (completesOn_of_stored MEM s (by rw [← effAddr_eq]; rfl)).completes

/-- Settles O46: with RUN = 1 a step is the cycle, and under MEM_LE the word at the PC is its four bytes there. -/
theorem stepRunsTheDecodedInstruction : Obligations.StepRunsTheDecodedInstruction := by
  unfold Obligations.StepRunsTheDecodedInstruction
  intro s
  have runs (run : s.run = true) (i : Instr) (h : decode s.fetchWord = .instr i) : step s = exec i s := by
    rw [step_of_run run, cycle_of_instr h]
  refine ⟨runs, fun run i h => runs run i ?_, fun run u h => ?_, step_of_halted⟩
  · injection h with word
  · rw [step_of_run run, cycle_of_unassigned h]; rfl

/-! ## A store, then a load (R174) -/

theorem extractLsb'_mergedWord (old v : Word) {n : Nat} (hn : n ≤ 32) : (mergedWord old v n).extractLsb' 0 n = v.extractLsb' 0 n := by
  apply BitVec.eq_of_getLsbD_eq
  intro i hi
  simp [hi, getLsbD_mergedWord old v n (by omega : i < 32)]

theorem zext8_low (v : Word) : zext8 (v.extractLsb' 0 8) = v &&& 0xFF := by
  apply BitVec.eq_of_toNat_eq
  rw [zext8_toNat, BitVec.toNat_and]
  exact (Nat.and_two_pow_sub_one_eq_mod v.toNat 8).symm

theorem zext16_low (v : Word) : zext16 (v.extractLsb' 0 16) = v &&& 0xFFFF := by
  apply BitVec.eq_of_toNat_eq
  rw [zext16_toNat, BitVec.toNat_and]
  exact (Nat.and_two_pow_sub_one_eq_mod v.toNat 16).symm

/-- R39, R171: the masks of the word a one-byte store writes. -/
theorem mergedWord_eight (old v : Word) : mergedWord old v 8 = (old &&& 0xFFFFFF00) ||| (v &&& 0xFF) := by
  rw [← mergeLow_eq_mergedWord, ← zext8_low]
  rfl

/-- R40, R172: and of a two-byte store. -/
theorem mergedWord_sixteen (old v : Word) : mergedWord old v 16 = (old &&& 0xFFFF0000) ||| (v &&& 0xFFFF) := by
  rw [← mergeLow_eq_mergedWord, ← zext16_low]
  rfl

section
variable {μ : Type} {M : MemComponent μ}

theorem MemComponent.memWrite1_low (m : μ) (a v : Word) :
    M.memWrite1 m a (v.extractLsb' 0 8) = M.writeWord m a (mergedWord (M.readWord m a) v 8) := by
  rw [MemComponent.memWrite1_eq_mergeLow, mergeLow_eq_mergedWord]

theorem MemComponent.memWrite2_low (m : μ) (a v : Word) :
    M.memWrite2 m a (v.extractLsb' 0 16) = M.writeWord m a (mergedWord (M.readWord m a) v 16) := by
  rw [MemComponent.memWrite2_eq_mergeLow, mergeLow_eq_mergedWord]

/-- The instruction writes `f` of the word at `x[rb] + sext_16(disp)` to rd. -/
def LoadsAs (M : MemComponent μ) (load : Instr) (rd rb : RegIdx) (disp : Half) (f : Word → Word) : Prop :=
  ∀ t, execOn M load t = .next (t.defaultNext.setReg rd (f (M.readWord t.mem (effAddr t rb disp))))

theorem loadsAs_lw (rd rb : RegIdx) (disp : Half) : LoadsAs M (.lw rd disp rb) rd rb disp id := fun _ => rfl

theorem loadsAs_lhu (rd rb : RegIdx) (disp : Half) : LoadsAs M (.lhu rd disp rb) rd rb disp fun w => zext16 (w.extractLsb' 0 16) := fun _ => rfl

theorem loadsAs_lh (rd rb : RegIdx) (disp : Half) : LoadsAs M (.lh rd disp rb) rd rb disp fun w => sext16 (w.extractLsb' 0 16) := fun _ => rfl

theorem loadsAs_lbu (rd rb : RegIdx) (disp : Half) : LoadsAs M (.lbu rd disp rb) rd rb disp fun w => zext8 (w.extractLsb' 0 8) := fun _ => rfl

theorem loadsAs_lb (rd rb : RegIdx) (disp : Half) : LoadsAs M (.lb rd disp rb) rd rb disp fun w => sext8 (w.extractLsb' 0 8) := fun _ => rfl

/-- R32 (b): a load at the address a store has just written makes its value of the stored word. -/
theorem store_then_load (contract : M.Contract) {s : State μ} {store load : Instr} {a w : Word} {rd rb : RegIdx} {disp : Half}
    {f : Word → Word} {P : Word → Prop} (hstore : stored M s store = some (a, w)) (hload : LoadsAs M load rd rb disp f)
    (ha : effAddr s rb disp = a) (holds : P (f w)) :
    CompletesOn M store s fun t => CompletesOn M load t fun u => P (u.reg rd) := by
  refine ⟨_, execOn_of_stored M hstore, _, hload _, ?_⟩
  have address : effAddr (s.defaultNext.withMem (M.writeWord s.mem a w)) rb disp = a := ha
  simpa only [State.reg_setReg_same, State.withMem_mem, address, contract.read_after_write] using holds

end

/-- Settles O32: the memory returns the word just written, and the low bits of a merged word are the stored value's. -/
theorem storeThenLoadTable : Obligations.StoreThenLoadTable := by
  unfold Obligations.StoreThenLoadTable
  intro μ M contract
  have read := contract.read_after_write
  constructor
  · intro m a v
    refine ⟨read m a v, ?_, ?_, ?_, ?_, ?_, ?_⟩
    · rw [MemComponent.memRead2, MemComponent.memWrite4, read]
    · rw [MemComponent.memRead1, MemComponent.memWrite4, read]
    · rw [MemComponent.memWrite1_low, MemComponent.memRead1, read, extractLsb'_mergedWord _ _ (by omega)]
    · rw [MemComponent.memWrite1_low, MemComponent.memRead4, read, mergedWord_eight]
    · rw [MemComponent.memWrite2_low, MemComponent.memRead2, read, extractLsb'_mergedWord _ _ (by omega)]
    · rw [MemComponent.memWrite2_low, MemComponent.memRead4, read, mergedWord_sixteen]
  · intro s rt rs rd rb imm disp ha
    have lowByte (old : Word) : (mergedWord old (s.reg rt) 8).extractLsb' 0 8 = (s.reg rt).extractLsb' 0 8 :=
      extractLsb'_mergedWord _ _ (by omega)
    have lowHalf (old : Word) : (mergedWord old (s.reg rt) 16).extractLsb' 0 16 = (s.reg rt).extractLsb' 0 16 :=
      extractLsb'_mergedWord _ _ (by omega)
    refine ⟨?sw_lw, ?sw_lhu, ?sw_lh, ?sw_lbu, ?sw_lb, ?sb_lbu, ?sb_lw, ?sh_lhu, ?sh_lw⟩
    case sw_lw => exact store_then_load contract (P := (· = _)) rfl (loadsAs_lw rd rb disp) ha rfl
    case sw_lhu => exact store_then_load contract (P := (· = _)) rfl (loadsAs_lhu rd rb disp) ha (zext16_low _)
    case sw_lh => exact store_then_load contract (P := (·.toInt = _)) rfl (loadsAs_lh rd rb disp) ha (sext16_toInt _)
    case sw_lbu => exact store_then_load contract (P := (· = _)) rfl (loadsAs_lbu rd rb disp) ha (zext8_low _)
    case sw_lb => exact store_then_load contract (P := (·.toInt = _)) rfl (loadsAs_lb rd rb disp) ha (sext8_toInt _)
    case sb_lbu => exact store_then_load contract (P := (· = _)) rfl (loadsAs_lbu rd rb disp) ha (by rw [lowByte, zext8_low])
    case sb_lw => exact store_then_load contract (P := (· = _)) rfl (loadsAs_lw rd rb disp) ha (mergedWord_eight _ _)
    case sh_lhu => exact store_then_load contract (P := (· = _)) rfl (loadsAs_lhu rd rb disp) ha (by rw [lowHalf, zext16_low])
    case sh_lw => exact store_then_load contract (P := (· = _)) rfl (loadsAs_lw rd rb disp) ha (mergedWord_sixteen _ _)

end Sys2Proof.Machine
end

section
/-! The reference memories (R32 to R34): the contract, the bytes of every access, and the canonical form as data. -/

namespace Sys2Proof.Machine

/-! ## The contract (R32) -/

theorem Memory.readWordLE_writeWordLE_same (m : Memory) (a v : Word) : (m.writeWordLE a v).readWordLE a = v := by
  simp [Memory.readWordLE, Memory.readByte_writeWordLE, wordOfBytes_bytes]

/-- Two words of MEM_LE share storage where some byte of one is a byte of the other (R32 (c)). -/
theorem shares_iff (a b : Word) : memLE.shares a b = true ↔ ∃ i j : Fin 4, a + BitVec.ofNat 32 i.val = b + BitVec.ofNat 32 j.val := by
  simp only [memLE, Bool.or_eq_true, decide_eq_true_eq]
  constructor
  · rintro (near | near)
    · exact ⟨⟨_, near⟩, 0, by simp only [BitVec.ofNat_toNat, BitVec.setWidth_eq]; exact add_sub_cancel .. |>.trans (BitVec.add_zero b).symm⟩
    · exact ⟨0, ⟨_, near⟩, by simp only [BitVec.ofNat_toNat, BitVec.setWidth_eq]; exact (BitVec.add_zero a).trans (add_sub_cancel ..).symm⟩
  · rintro ⟨⟨i, hi⟩, ⟨j, hj⟩, common⟩
    bv_omega

/-- Bytes of words that share nothing are different bytes. -/
theorem add_ne_add_of_not_shares {a b : Word} (apart : memLE.shares a b = false) (i j : Fin 4) :
    b + BitVec.ofNat 32 j.val ≠ a + BitVec.ofNat 32 i.val := fun common =>
  Bool.eq_false_iff.mp apart ((shares_iff a b).mpr ⟨i, j, common.symm⟩)

theorem Memory.readWordLE_writeWordLE_of_not_shares (m : Memory) {a b : Word} (v : Word) (apart : memLE.shares a b = false) :
    (m.writeWordLE a v).readWordLE b = m.readWordLE b := by
  have byte (j : Fin 4) : (m.writeWordLE a v).readByte (b + BitVec.ofNat 32 j.val) = m.readByte (b + BitVec.ofNat 32 j.val) := by
    have ne0 : b + BitVec.ofNat 32 j.val ≠ a := by simpa using add_ne_add_of_not_shares apart 0 j
    have ne1 : b + BitVec.ofNat 32 j.val ≠ a + 1 := add_ne_add_of_not_shares apart 1 j
    have ne2 : b + BitVec.ofNat 32 j.val ≠ a + 2 := add_ne_add_of_not_shares apart 2 j
    have ne3 : b + BitVec.ofNat 32 j.val ≠ a + 3 := add_ne_add_of_not_shares apart 3 j
    rw [Memory.readByte_writeWordLE, if_neg ne3, if_neg ne2, if_neg ne1, if_neg ne0]
  have byte0 : (m.writeWordLE a v).readByte b = m.readByte b := by simpa using byte 0
  rw [Memory.readWordLE, Memory.readWordLE, byte0]
  exact congr (congr (congrArg _ (byte 1)) (byte 2)) (byte 3)

theorem memLE_contract : memLE.Contract :=
  ⟨Memory.readWordLE_writeWordLE_same, fun m _ _ v => Memory.readWordLE_writeWordLE_of_not_shares m v⟩

theorem alignDown_toNat (a : Word) : (alignDown a).toNat = a.toNat / 4 * 4 := by
  have cleared : alignDown a = mergedWord a 0 2 := by
    rw [← mergeLow_eq_mergedWord]
    simp [alignDown]
  have := a.isLt
  rw [cleared, mergedWord, BitVec.toNat_ofNat]
  simp
  omega

/-- Different multiples of 4 are at least 4 apart, also around the top of the space. -/
theorem not_shares_of_alignDown_ne {a b : Word} (h : alignDown a ≠ alignDown b) : memLE.shares (alignDown a) (alignDown b) = false := by
  have ha := alignDown_toNat a
  have hb := alignDown_toNat b
  have hne : (alignDown a).toNat ≠ (alignDown b).toNat := fun e => h (BitVec.eq_of_toNat_eq e)
  simp only [memLE, Bool.or_eq_false_iff, decide_eq_false_iff_not, BitVec.toNat_sub]
  omega

theorem memAligned_contract : memAligned.Contract where
  read_after_write m a v := Memory.readWordLE_writeWordLE_same m (alignDown a) v
  write_elsewhere m a b v apart :=
    Memory.readWordLE_writeWordLE_of_not_shares m v (not_shares_of_alignDown_ne (by simpa [memAligned] using apart))

/-- Settles O34: MEM_ALIGNED is MEM_LE on multiples of 4. -/
theorem referenceMemoriesMeetContract : Obligations.ReferenceMemoriesMeetContract := by
  unfold Obligations.ReferenceMemoriesMeetContract
  exact ⟨memLE_contract, memAligned_contract, shares_iff⟩

/-! ## The bytes of each access (R33, R34) -/

/-- R34: the halves of a word are its bytes, the byte at the lower address less significant. -/
theorem extractLsb'_eq_bytes (v : Word) (k : Nat) : v.extractLsb' (8 * k) 16 = byteOfWord v (k + 1) ++ byteOfWord v k := by
  rw [byteOfWord, byteOfWord, BitVec.extractLsb'_append_extractLsb'_eq_extractLsb' (by omega)]

section
variable (m : Memory) (a : Word)

/-- The bytes of the word at `a`. -/
theorem byteOfWord_readWordLE : byteOfWord (m.readWordLE a) 0 = m.readByte a ∧ byteOfWord (m.readWordLE a) 1 = m.readByte (a + 1) ∧
    byteOfWord (m.readWordLE a) 2 = m.readByte (a + 2) ∧ byteOfWord (m.readWordLE a) 3 = m.readByte (a + 3) :=
  byteOfWord_wordOfBytes ..

/-- The bytes of memory where a word was written. -/
theorem readByte_writeWordLE_at (v : Word) : (m.writeWordLE a v).readByte a = byteOfWord v 0 ∧
    (m.writeWordLE a v).readByte (a + 1) = byteOfWord v 1 ∧ (m.writeWordLE a v).readByte (a + 2) = byteOfWord v 2 ∧
    (m.writeWordLE a v).readByte (a + 3) = byteOfWord v 3 := by
  simp [Memory.readByte_writeWordLE]

theorem memLE_memRead1 : memLE.memRead1 m a = m.readByte a := (byteOfWord_readWordLE m a).1

theorem memLE_memRead2 : memLE.memRead2 m a = m.readByte (a + 1) ++ m.readByte a := by
  obtain ⟨byte0, byte1, _⟩ := byteOfWord_readWordLE m a
  rw [← byte0, ← byte1]
  exact extractLsb'_eq_bytes (m.readWordLE a) 0

/-- A one-byte store changes its byte and no other. -/
theorem readByte_memWrite1 (v : Byte) (b : Word) : Memory.readByte (memLE.memWrite1 m a v) b = if b = a then v else m.readByte b := by
  obtain ⟨new0, new1, new2, new3⟩ := byteOfWord_mergeByte (m.readWordLE a) v
  obtain ⟨_, old1, old2, old3⟩ := byteOfWord_readWordLE m a
  refine (Memory.readByte_writeWordLE ..).trans ?_
  simp only [memLE] at *
  rw [new0, new1, new2, new3, old1, old2, old3]
  split_ifs <;> simp_all

/-- A two-byte store changes its two bytes and no other. -/
theorem readByte_memWrite2 (v : Half) (b : Word) : Memory.readByte (memLE.memWrite2 m a v) b =
    if b = a + 1 then v.extractLsb' 8 8 else if b = a then v.extractLsb' 0 8 else m.readByte b := by
  obtain ⟨new0, new1, new2, new3⟩ := byteOfWord_mergeHalf (m.readWordLE a) v
  obtain ⟨_, _, old2, old3⟩ := byteOfWord_readWordLE m a
  refine (Memory.readByte_writeWordLE ..).trans ?_
  simp only [memLE] at *
  rw [new0, new1, new2, new3, old2, old3]
  split_ifs <;> simp_all

end

/-! ## The canonical form as data (log 2) -/

/-- What a canonical list lists at an address is in the space and no unwritten byte. -/
theorem Memory.wf_lookup {m : Memory} (wf : m.wf = true) {a : Nat} {b : Byte} (h : m.lookup a = some b) :
    a < 2 ^ 32 ∧ b ≠ Config.unwrittenByte := by
  have listed : (a, b) ∈ m := by
    clear wf
    induction m with
    | nil => cases h
    | cons c rest ih =>
      unfold Memory.lookup at h
      split at h
      · next here => cases h; exact here ▸ List.mem_cons_self ..
      · exact List.mem_cons_of_mem _ (ih h)
  exact ((Memory.wf_iff m).mp wf).2 _ listed

theorem Memory.readByte_ofNat (m : Memory) {a : Nat} (ha : a < 2 ^ 32) :
    m.readByte (BitVec.ofNat 32 a) = (m.lookup a).getD Config.unwrittenByte := by
  rw [Memory.readByte, BitVec.toNat_ofNat, Nat.mod_eq_of_lt ha]

/-- A canonical list is read off its bytes: it lists an address of the space exactly when the byte there is not the unwritten one. -/
theorem Memory.lookup_eq_of_readByte_eq {m m' : Memory} (wf : m.wf = true) (wf' : m'.wf = true) (same : ∀ a, m.readByte a = m'.readByte a)
    (a : Nat) : m.lookup a = m'.lookup a := by
  have bytes (ha : a < 2 ^ 32) : (m.lookup a).getD Config.unwrittenByte = (m'.lookup a).getD Config.unwrittenByte := by
    rw [← m.readByte_ofNat ha, ← m'.readByte_ofNat ha, same]
  cases h : m.lookup a with
  | none =>
    cases h' : m'.lookup a with
    | none => rfl
    | some b' =>
      obtain ⟨ha, written⟩ := Memory.wf_lookup wf' h'
      rw [h, h'] at bytes
      exact absurd (bytes ha).symm written
  | some b =>
    obtain ⟨ha, written⟩ := Memory.wf_lookup wf h
    cases h' : m'.lookup a with
    | none =>
      rw [h, h'] at bytes
      exact absurd (bytes ha) written
    | some b' =>
      rw [h, h'] at bytes
      exact congrArg some (bytes ha)

theorem Memory.risingFrom_cons {l : Nat} {c : Host.Cell} {rest : Memory} :
    Memory.risingFrom l (c :: rest) = true ↔ l ≤ c.1 ∧ rest.risingFrom (c.1 + 1) = true := by
  simp [Memory.risingFrom]

theorem Memory.lookup_head (c : Host.Cell) (rest : Memory) : Memory.lookup (c :: rest) c.1 = some c.2 := if_pos rfl

/-- A rising list starts no later than any list with the same listed bytes. -/
theorem Memory.head_le {c c' : Host.Cell} {rest rest' : Memory} {l : Nat} (rising : Memory.risingFrom l (c :: rest) = true)
    (same : Memory.lookup (c :: rest) c'.1 = Memory.lookup (c' :: rest') c'.1) : c.1 ≤ c'.1 := by
  obtain ⟨_, above⟩ := Memory.risingFrom_cons.mp rising
  by_contra before
  have none := Memory.lookup_of_risingFrom (Memory.risingFrom_cons.mpr ⟨le_refl c.1, above⟩) (Nat.lt_of_not_le before)
  rw [none, Memory.lookup_head] at same
  cases same

/-- Two rising lists with the same listed bytes are the same list. -/
theorem Memory.eq_of_lookup_eq {m m' : Memory} {l l' : Nat} (rising : m.risingFrom l = true) (rising' : m'.risingFrom l' = true)
    (same : ∀ a, m.lookup a = m'.lookup a) : m = m' := by
  induction m generalizing m' l l' with
  | nil =>
    cases m' with
    | nil => rfl
    | cons c' rest' => cases (same c'.1).trans (Memory.lookup_head c' rest')
  | cons c rest ih =>
    cases m' with
    | nil => cases (same c.1).symm.trans (Memory.lookup_head c rest)
    | cons c' rest' =>
      have address : c.1 = c'.1 := Nat.le_antisymm (Memory.head_le rising (same c'.1)) (Memory.head_le rising' (same c.1).symm)
      have byte : c.2 = c'.2 := by
        have := same c.1
        rwa [Memory.lookup_head, address, Memory.lookup_head, Option.some_inj] at this
      obtain ⟨_, above⟩ := Memory.risingFrom_cons.mp rising
      obtain ⟨_, above'⟩ := Memory.risingFrom_cons.mp rising'
      refine congrArg₂ List.cons (Prod.ext address byte) (ih above above' fun a => ?_)
      by_cases here : c.1 = a
      · rw [Memory.lookup_of_risingFrom above (by omega), Memory.lookup_of_risingFrom above' (by omega)]
      · simpa only [Memory.lookup, if_neg here, if_neg (address ▸ here)] using same a

/-- Canonical lists that read alike are equal. -/
theorem Memory.eq_of_readByte_eq {m m' : Memory} (wf : m.wf = true) (wf' : m'.wf = true) (same : ∀ a, m.readByte a = m'.readByte a) : m = m' :=
  Memory.eq_of_lookup_eq ((Memory.wf_iff m).mp wf).1 ((Memory.wf_iff m').mp wf').1 (Memory.lookup_eq_of_readByte_eq wf wf' same)

/-- Settles O36: a canonical list is fixed by what it lists, and what it lists by its bytes. -/
theorem canonicalMemoriesWithEqualBytesAreEqual : Obligations.CanonicalMemoriesWithEqualBytesAreEqual := by
  unfold Obligations.CanonicalMemoriesWithEqualBytesAreEqual
  exact fun _ _ => Memory.eq_of_readByte_eq

/-- Settles O35: both sides of each store are canonical and read alike, so they are the same list. -/
theorem adapterIsByteMemory : Obligations.AdapterIsByteMemory := by
  unfold Obligations.AdapterIsByteMemory
  intro m a wf
  refine ⟨memLE_memRead1 m a, memLE_memRead2 m a, fun v => ?_, fun v => ?_⟩
  · refine Memory.eq_of_readByte_eq (Memory.wf_memWrite1 wf a v) (Memory.wf_writeByte wf a v) fun b => ?_
    rw [readByte_memWrite1, Memory.readByte_writeByte]
  · refine Memory.eq_of_readByte_eq (Memory.wf_memWrite2 wf a v) (Memory.wf_writeByte (Memory.wf_writeByte wf _ _) _ _) fun b => ?_
    rw [readByte_memWrite2, Memory.readByte_writeByte, Memory.readByte_writeByte]

/-- Settles O37: the accesses read the bytes that the word, and then the byte, left. -/
theorem mixedWidthAccesses : Obligations.MixedWidthAccesses := by
  unfold Obligations.MixedWidthAccesses
  intro m a v b
  obtain ⟨byte0, byte1, byte2, byte3⟩ := readByte_writeWordLE_at m a v
  refine ⟨?_, ?_, ?_, ?_, ?_, ?_, ?_⟩
  · rw [memLE_memRead1]; exact byte0
  · rw [memLE_memRead1]; exact byte1
  · rw [memLE_memRead1]; exact byte2
  · rw [memLE_memRead1]; exact byte3
  · exact congrArg (BitVec.extractLsb' 0 16) (m.readWordLE_writeWordLE_same a v)
  · have next : a + 2 + 1 = a + 3 := by rw [BitVec.add_assoc]; rfl
    rw [memLE_memRead2, next]
    exact (congrArg₂ (· ++ ·) byte3 byte2).trans (extractLsb'_eq_bytes v 2).symm
  · have word : memLE.memRead4 (memLE.memWrite1 (m.writeWordLE a v) (a + 1) b) a =
        wordOfBytes (byteOfWord v 0) b (byteOfWord v 2) (byteOfWord v 3) := by
      change wordOfBytes (Memory.readByte _ a) (Memory.readByte _ (a + 1)) (Memory.readByte _ (a + 2)) (Memory.readByte _ (a + 3)) = _
      simp [readByte_memWrite1, Memory.readByte_writeWordLE]
    exact word.trans (congrArg (· ++ b ++ byteOfWord v 0) (extractLsb'_eq_bytes v 2).symm)

/-- The number two joined bit strings stand for. -/
theorem toNat_append_eq {n k : Nat} (x : BitVec n) (y : BitVec k) : (x ++ y).toNat = x.toNat * 2 ^ k + y.toNat := by
  rw [BitVec.toNat_append, ← Nat.shiftLeft_add_eq_or_of_lt y.isLt, Nat.shiftLeft_eq]

/-- Settles O29: a load extends the bytes that MEM_LE makes the word of. -/
theorem loadsReadBytesLittleEndian : Obligations.LoadsReadBytesLittleEndian := by
  unfold Obligations.LoadsReadBytesLittleEndian
  intro rt imm rs s
  have byte : MEM.memRead1 s.mem (effAddr s rs imm) = s.byteAt (effAddr s rs imm) := memLE_memRead1 ..
  have half : MEM.memRead2 s.mem (effAddr s rs imm) = s.byteAt (effAddr s rs imm + 1) ++ s.byteAt (effAddr s rs imm) := memLE_memRead2 ..
  have word : (MEM.memRead4 s.mem (effAddr s rs imm)).toNat = (s.byteAt (effAddr s rs imm)).toNat +
      2 ^ 8 * (s.byteAt (effAddr s rs imm + 1)).toNat + 2 ^ 16 * (s.byteAt (effAddr s rs imm + 2)).toNat +
      2 ^ 24 * (s.byteAt (effAddr s rs imm + 3)).toNat := wordOfBytes_toNat ..
  have atZero : effAddr s rs imm + 0 = effAddr s rs imm := BitVec.add_zero _
  refine ⟨⟨_, exec_lb .., ?lb⟩, ⟨_, exec_lbu .., ?lbu⟩, ⟨_, exec_lh .., ?lh⟩, ⟨_, exec_lhu .., ?lhu⟩, ⟨_, exec_lw .., ?lw⟩⟩ <;>
    simp only [State.reg_setReg_same, atZero]
  case lb => rw [sext8_toInt, byte]
  case lbu => rw [zext8_toNat, byte]
  case lh =>
    rw [sext16_toInt, half, BitVec.toInt_append, if_neg (by decide)]
    omega
  case lhu =>
    rw [zext16_toNat, half, toNat_append_eq]
    omega
  case lw => exact word

theorem self_ne_add_one (a : Word) : (a = a + 1) = False := by simp

section
variable (s : State) (a b : Word)

theorem State.byteAt_store1 (v : Byte) : (s.store1 MEM a v).byteAt b = if b = a then v else s.byteAt b := readByte_memWrite1 ..

theorem State.byteAt_store2 (v : Half) : (s.store2 MEM a v).byteAt b =
    if b = a + 1 then v.extractLsb' 8 8 else if b = a then v.extractLsb' 0 8 else s.byteAt b := readByte_memWrite2 ..

theorem State.byteAt_store4 (v : Word) : (s.store4 MEM a v).byteAt b =
    if b = a + 3 then byteOfWord v 3 else if b = a + 2 then byteOfWord v 2 else if b = a + 1 then byteOfWord v 1
    else if b = a then byteOfWord v 0 else s.byteAt b := Memory.readByte_writeWordLE ..

end

/-- Settles O31: each store's bytes are its value's, and no other byte is written. -/
theorem storesChangeExactlyTheirBytes : Obligations.StoresChangeExactlyTheirBytes := by
  unfold Obligations.StoresChangeExactlyTheirBytes
  rintro rt imm rs s a rfl
  refine ⟨⟨_, exec_sb .., ?sb, fun b h => ?sb'⟩, ⟨_, exec_sh .., ?sh, fun b h h1 => ?sh'⟩, ⟨_, exec_sw .., ?sw, fun b h h1 h2 h3 => ?sw'⟩⟩
  case sb =>
    rw [State.byteAt_store1, if_pos rfl]
    exact BitVec.extractLsb'_toNat ..
  case sb' => rw [State.byteAt_store1, if_neg h, State.defaultNext_byteAt]
  case sh =>
    simp only [State.byteAt_store2, reduceIte, self_ne_add_one, BitVec.extractLsb'_toNat, Nat.shiftRight_eq_div_pow]
    omega
  case sh' => rw [State.byteAt_store2, if_neg h1, if_neg h, State.defaultNext_byteAt]
  case sw => exact (wordOfBytes_toNat ..).symm.trans (congrArg BitVec.toNat (s.mem.readWordLE_writeWordLE_same (effAddr s rs imm) (s.reg rt)))
  case sw' => rw [State.byteAt_store4, if_neg h3, if_neg h2, if_neg h1, if_neg h, State.defaultNext_byteAt]

/-- Settles O38: the memory returns the word just written where the next PC is, and RUN is still 1. -/
theorem storeIsSeenByTheNextFetch : Obligations.StoreIsSeenByTheNextFetch := by
  unfold Obligations.StoreIsSeenByTheNextFetch
  intro s t rt imm rs run h address stepped
  rw [step_of_run run, cycle_of_instr h, exec_sw] at stepped
  cases stepped
  have fetched : (s.defaultNext.store4 MEM (effAddr s rs imm) (s.reg rt)).fetchWord = s.reg rt := by
    rw [address]
    exact memLE_contract.read_after_write s.mem (s.pc + 4) (s.reg rt)
  refine ⟨fetched, fun i hi => ?_⟩
  rw [step_of_run (by exact run), cycle_of_instr (by rw [fetched, hi])]

/-- Settles O50: every field of the reset state is its constant of Config, and no byte is listed. -/
theorem resetState : Obligations.ResetState := by
  unfold Obligations.ResetState
  refine ⟨rfl, rfl, fun r => ?_, rfl, rfl, fun a => Memory.readByte_nil a⟩
  exact Vector.getElem_replicate r.isLt

end Sys2Proof.Machine
end

section
/-! What an instruction changes (R13, R16, R19, R21): the shapes of its next state, and the frame rule read off them. -/

namespace Sys2Proof.Machine

/-! ## The shapes of a next state -/

/-- What an instruction can do: set the PC, and write its destination register, HI, LO or both, memory if it is a store, or RUN if it is a SYSCALL
that halts. -/
inductive Shape (i : Instr) (s : State) : State → Prop where
  | pc (d : Word) : Shape i s (s.setPc d)
  | reg (d : Word) (rd : RegIdx) (v : Word) (dest : i.dest = some rd) : Shape i s ((s.setPc d).setReg rd v)
  | hi (v : Word) (writes : i.writesHi) : Shape i s (s.defaultNext.setHi v)
  | lo (v : Word) (writes : i.writesLo) : Shape i s (s.defaultNext.setLo v)
  | hiLo (p : Word × Word) (hi : i.writesHi) (lo : i.writesLo) : Shape i s (s.defaultNext.setHiLo p)
  | mem (a v : Word) (store : i.isStore) : Shape i s (s.defaultNext.withMem (MEM.writeWord s.mem a v))
  | halt (syscall : i = .syscall) (code : s.reg 2 = 10) : Shape i s s.defaultNext.clearRun

theorem State.branchIf_eq_setPc (s : State) (taken : Bool) (imm : Half) :
    s.defaultNext.branchIf taken s.pc imm = s.setPc (if taken then branchDest s.pc imm else s.pc + 4) := by
  cases taken <;> rfl

theorem State.linking_branchIf_eq_setReg (s : State) (taken : Bool) (imm : Half) :
    (s.defaultNext.setReg linkReg (linkValue s.pc)).branchIf taken s.pc imm =
      (s.setPc (if taken then branchDest s.pc imm else s.pc + 4)).setReg linkReg (linkValue s.pc) := by
  cases taken <;> rfl

/-- R180. -/
theorem exec_syscall_of_code {s : State} (code : s.reg 2 = 10) : exec .syscall s = .next s.defaultNext.clearRun := by
  rw [exec_syscall]
  exact congrArg Host.Outcome.next (if_pos code)

theorem exec_syscall_of_not_code {s : State} (code : s.reg 2 ≠ 10) : exec .syscall s = .next s.defaultNext := by
  rw [exec_syscall]
  exact congrArg Host.Outcome.next (if_neg code)

/-- Every instruction completes, in one of those shapes. -/
theorem exec_shape (i : Instr) (s : State) : ∃ t, exec i s = .next t ∧ Shape i s t := by
  cases i
  case beq | bne | blez | bgtz | bltz | bgez => exact ⟨_, rfl, s.branchIf_eq_setPc .. ▸ .pc _⟩
  case bltzal | bgezal => exact ⟨_, rfl, s.linking_branchIf_eq_setReg .. ▸ .reg _ _ _ rfl⟩
  case j | jr => exact ⟨_, rfl, .pc _⟩
  case syscall =>
    by_cases code : s.reg 2 = 10
    · exact ⟨_, exec_syscall_of_code code, .halt rfl code⟩
    · exact ⟨_, exec_syscall_of_not_code code, .pc _⟩
  case mthi rs => exact ⟨_, rfl, .hi _ (.inr ⟨rs, rfl⟩)⟩
  case mtlo rs => exact ⟨_, rfl, .lo _ (.inr ⟨rs, rfl⟩)⟩
  case mult rs rt => exact ⟨_, rfl, .hiLo _ (.inl ⟨rs, rt, .inl rfl⟩) (.inl ⟨rs, rt, .inl rfl⟩)⟩
  case multu rs rt => exact ⟨_, rfl, .hiLo _ (.inl ⟨rs, rt, .inr (.inl rfl)⟩) (.inl ⟨rs, rt, .inr (.inl rfl)⟩)⟩
  case div rs rt => exact ⟨_, rfl, .hiLo _ (.inl ⟨rs, rt, .inr (.inr (.inl rfl))⟩) (.inl ⟨rs, rt, .inr (.inr (.inl rfl))⟩)⟩
  case divu rs rt => exact ⟨_, rfl, .hiLo _ (.inl ⟨rs, rt, .inr (.inr (.inr rfl))⟩) (.inl ⟨rs, rt, .inr (.inr (.inr rfl))⟩)⟩
  case sb rt imm rs => exact ⟨_, rfl, .mem _ _ ⟨rt, imm, rs, .inl rfl⟩⟩
  case sh rt imm rs => exact ⟨_, rfl, .mem _ _ ⟨rt, imm, rs, .inr (.inl rfl)⟩⟩
  case sw rt imm rs => exact ⟨_, rfl, .mem _ _ ⟨rt, imm, rs, .inr (.inr rfl)⟩⟩
  all_goals exact ⟨_, rfl, .reg _ _ _ rfl⟩

theorem shape_of_exec {i : Instr} {s t : State} (h : exec i s = .next t) : Shape i s t := by
  obtain ⟨u, answers, shape⟩ := exec_shape i s
  cases answers.symm.trans h
  exact shape

/-! ## The frame rule (R21) -/

section
variable {i : Instr} {s t : State}

theorem Shape.reg_eq (shape : Shape i s t) {r : RegIdx} (h : i.dest ≠ some r) : t.reg r = s.reg r := by
  cases shape with
  | reg d rd v dest => exact State.reg_setReg_ne _ (fun same => h (dest.trans (congrArg some same.symm))) v
  | _ => rfl

theorem Shape.hi_eq (shape : Shape i s t) (h : ¬ i.writesHi) : t.hi = s.hi := by
  cases shape with
  | hi v writes => exact absurd writes h
  | hiLo p writes _ => exact absurd writes h
  | _ => rfl

theorem Shape.lo_eq (shape : Shape i s t) (h : ¬ i.writesLo) : t.lo = s.lo := by
  cases shape with
  | lo v writes => exact absurd writes h
  | hiLo p _ writes => exact absurd writes h
  | _ => rfl

theorem Shape.mem_eq (shape : Shape i s t) (h : ¬ i.isStore) : t.mem = s.mem := by
  cases shape with
  | mem a v store => exact absurd store h
  | _ => rfl

/-- R19: RUN stays as it is, or a SYSCALL with 10 in register 2 clears it. -/
theorem Shape.run_eq (shape : Shape i s t) : t.run = s.run ∨ i = .syscall ∧ s.reg 2 = 10 ∧ t.run = false := by
  cases shape with
  | halt syscall code => exact .inr ⟨syscall, code, rfl⟩
  | _ => exact .inl rfl

end

/-- Settles O53: each clause holds of every shape of next state. -/
theorem frameRule : Obligations.FrameRule := by
  unfold Obligations.FrameRule
  intro i s t h
  have shape := shape_of_exec h
  refine ⟨fun r => shape.reg_eq, shape.hi_eq, shape.lo_eq, fun noStore => ?_, fun noSyscall => ?_⟩
  · have same := shape.mem_eq noStore
    exact ⟨fun a => by rw [State.byteAt_eq, State.byteAt_eq, same], same⟩
  · exact shape.run_eq.resolve_right fun ⟨syscall, _⟩ => noSyscall syscall

/-! ## HI and LO (R16) -/

/-- Where a division leaves LO does not depend on HI, and where it leaves HI does not depend on LO. -/
theorem divideSigned_lo (a b hi hi' lo : Word) : (divideSigned divPolicy a b hi lo).2 = (divideSigned divPolicy a b hi' lo).2 := by
  unfold divideSigned
  split_ifs <;> rfl

theorem divideSigned_hi (a b hi lo lo' : Word) : (divideSigned divPolicy a b hi lo).1 = (divideSigned divPolicy a b hi lo').1 := by
  unfold divideSigned
  split_ifs <;> rfl

theorem divideUnsigned_lo (a b hi hi' lo : Word) : (divideUnsigned divPolicy a b hi lo).2 = (divideUnsigned divPolicy a b hi' lo).2 := by
  unfold divideUnsigned
  split_ifs <;> rfl

theorem divideUnsigned_hi (a b hi lo lo' : Word) : (divideUnsigned divPolicy a b hi lo).1 = (divideUnsigned divPolicy a b hi lo').1 := by
  unfold divideUnsigned
  split_ifs <;> rfl

/-- The state with other values in HI, LO and RUN. -/
def State.withHiLoRun (s : State) (hi lo : Word) (run : Bool) : State := { s with hi := hi, lo := lo, run := run }

/-- The states `t` and `u` agree in all but HI, LO and RUN, and in each of these too if the states `s` and `s'` before them did. -/
structure AgreesAfter (s s' t u : State) : Prop where
  pc : u.pc = t.pc
  reg : ∀ r, u.reg r = t.reg r
  mem : u.mem = t.mem
  hi : s'.hi = s.hi → u.hi = t.hi
  lo : s'.lo = s.lo → u.lo = t.lo
  run : s'.run = s.run → u.run = t.run

theorem AgreesAfter.branchIf {s s' t u : State} (agree : AgreesAfter s s' t u) (taken : Bool) (pc : Word) (imm : Half) :
    AgreesAfter s s' (t.branchIf taken pc imm) (u.branchIf taken pc imm) := by
  cases taken
  · exact agree
  · exact { agree with pc := rfl }

section
variable (s : State) {hi lo : Word} (run : Bool)

/-- R16, R19: HI is read by MFHI only, LO by MFLO only, RUN by no instruction; a division by zero leaves each where it was. -/
theorem exec_withHiLoRun {i : Instr} (readsHi : (∃ rd, i = .mfhi rd) → hi = s.hi) (readsLo : (∃ rd, i = .mflo rd) → lo = s.lo) :
    ∃ t u, exec i s = .next t ∧ exec i (s.withHiLoRun hi lo run) = .next u ∧ AgreesAfter s (s.withHiLoRun hi lo run) t u := by
  cases i
  case mfhi rd => cases readsHi ⟨rd, rfl⟩; exact ⟨_, _, rfl, rfl, ⟨rfl, fun _ => rfl, rfl, id, id, id⟩⟩
  case mflo rd => cases readsLo ⟨rd, rfl⟩; exact ⟨_, _, rfl, rfl, ⟨rfl, fun _ => rfl, rfl, id, id, id⟩⟩
  case mthi => exact ⟨_, _, rfl, rfl, ⟨rfl, fun _ => rfl, rfl, fun _ => rfl, id, id⟩⟩
  case mtlo => exact ⟨_, _, rfl, rfl, ⟨rfl, fun _ => rfl, rfl, id, fun _ => rfl, id⟩⟩
  case mult | multu => exact ⟨_, _, rfl, rfl, ⟨rfl, fun _ => rfl, rfl, fun _ => rfl, fun _ => rfl, id⟩⟩
  case div =>
    exact ⟨_, _, rfl, rfl, ⟨rfl, fun _ => rfl, rfl, fun same => same ▸ divideSigned_hi .., fun same => same ▸ divideSigned_lo .., id⟩⟩
  case divu =>
    exact ⟨_, _, rfl, rfl, ⟨rfl, fun _ => rfl, rfl, fun same => same ▸ divideUnsigned_hi .., fun same => same ▸ divideUnsigned_lo .., id⟩⟩
  case syscall =>
    by_cases code : s.reg 2 = 10
    · exact ⟨_, _, exec_syscall_of_code code, exec_syscall_of_code code, ⟨rfl, fun _ => rfl, rfl, id, id, fun _ => rfl⟩⟩
    · exact ⟨_, _, exec_syscall_of_not_code code, exec_syscall_of_not_code code, ⟨rfl, fun _ => rfl, rfl, id, id, id⟩⟩
  case beq | bne | blez | bgtz | bltz | bgez =>
    have default : AgreesAfter s (s.withHiLoRun hi lo run) s.defaultNext (s.withHiLoRun hi lo run).defaultNext :=
      ⟨rfl, fun _ => rfl, rfl, id, id, id⟩
    exact ⟨_, _, rfl, rfl, default.branchIf ..⟩
  case bltzal | bgezal =>
    have linked : AgreesAfter s (s.withHiLoRun hi lo run) (s.defaultNext.setReg linkReg (linkValue s.pc))
        ((s.withHiLoRun hi lo run).defaultNext.setReg linkReg (linkValue s.pc)) := ⟨rfl, fun _ => rfl, rfl, id, id, id⟩
    exact ⟨_, _, rfl, rfl, linked.branchIf ..⟩
  all_goals exact ⟨_, _, rfl, rfl, ⟨rfl, fun _ => rfl, rfl, id, id, id⟩⟩

/-- The fetch reads none of them. -/
theorem cycle_withRun : ∃ t u, cycle s = .next t ∧ cycle (s.withHiLoRun s.hi s.lo run) = .next u ∧
    AgreesAfter s (s.withHiLoRun s.hi s.lo run) t u := by
  cases h : decode s.fetchWord with
  | instr i =>
    rw [cycle_of_instr h, cycle_of_instr (s := s.withHiLoRun s.hi s.lo run) h]
    exact exec_withHiLoRun s run (fun _ => rfl) (fun _ => rfl)
  | unassigned u =>
    exact ⟨_, _, cycle_of_unassigned h, cycle_of_unassigned (s := s.withHiLoRun s.hi s.lo run) h, ⟨rfl, fun _ => rfl, rfl, id, id, id⟩⟩

end

/-- Settles O55: the writers are those of the frame rule, and no other instruction's next state holds what HI or LO held but as HI or LO. -/
theorem hiLoSeenOnlyByMoves : Obligations.HiLoSeenOnlyByMoves := by
  unfold Obligations.HiLoSeenOnlyByMoves
  intro i s t h
  have shape := shape_of_exec h
  refine ⟨fun changed => by_contra fun kept => changed (shape.hi_eq kept), fun changed => by_contra fun kept => changed (shape.lo_eq kept),
    fun v notRead => ?_, fun v notRead => ?_⟩
  · obtain ⟨t', u, answers, other, agree⟩ :=
      exec_withHiLoRun s (hi := v) (lo := s.lo) s.run (fun ⟨rd, read⟩ => absurd read (notRead rd)) (fun _ => rfl)
    cases answers.symm.trans h
    exact ⟨u, other, State.ext_reg agree.pc agree.reg rfl (agree.lo rfl) (agree.run rfl) agree.mem⟩
  · obtain ⟨t', u, answers, other, agree⟩ :=
      exec_withHiLoRun s (hi := s.hi) (lo := v) s.run (fun _ => rfl) (fun ⟨rd, read⟩ => absurd read (notRead rd))
    cases answers.symm.trans h
    exact ⟨u, other, State.ext_reg agree.pc agree.reg (agree.hi rfl) rfl (agree.run rfl) agree.mem⟩

/-! ## RUN (R19) -/

/-- A step that ends with RUN = 0 ran a SYSCALL with 10 in register 2. -/
theorem halting_step {s t : State} (stepped : step s = .next t) (halted : t.run = false) :
    decode s.fetchWord = .instr .syscall ∧ s.reg 2 = 10 := by
  have run := run_of_step_next stepped
  rw [step_of_run run] at stepped
  cases h : decode s.fetchWord with
  | unassigned u =>
    cases (cycle_of_unassigned h).symm.trans stepped
    cases halted.symm.trans run
  | instr i =>
    rcases (shape_of_exec ((cycle_of_instr h).symm.trans stepped)).run_eq with same | ⟨rfl, code, _⟩
    · cases halted.symm.trans (same.trans run)
    · exact ⟨rfl, code⟩

/-- And a step on such a SYSCALL ends in the default next state with RUN = 0. -/
theorem step_of_halting_syscall {s : State} (run : s.run = true) (h : decode s.fetchWord = .instr .syscall) (code : s.reg 2 = 10) :
    step s = .next s.defaultNext.clearRun := by
  rw [step_of_run run, cycle_of_instr h, exec_syscall_of_code code]

/-- Settles O48: of the shapes of a next state only the halting SYSCALL's changes RUN, and no meaning reads it. -/
theorem runIsOnlyClearedBySyscall : Obligations.RunIsOnlyClearedBySyscall := by
  unfold Obligations.RunIsOnlyClearedBySyscall
  refine ⟨rfl, fun i s t h changed => ?_, fun s t stepped => ⟨halting_step stepped, fun ⟨h, code⟩ => ?_⟩, fun s t b h => ?_⟩
  · exact (shape_of_exec h).run_eq.resolve_left changed
  · cases (step_of_halting_syscall (run_of_step_next stepped) h code).symm.trans stepped
    rfl
  · obtain ⟨t', u, answers, other, agree⟩ := cycle_withRun s b
    cases answers.symm.trans h
    exact ⟨u, other, State.ext_reg agree.pc agree.reg (agree.hi rfl) (agree.lo rfl) rfl agree.mem⟩

/-- Settles O49: the halting step is the SYSCALL's default next state with RUN = 0, where no step is taken. -/
theorem haltingSyscallEndsTheRun : Obligations.HaltingSyscallEndsTheRun := by
  unfold Obligations.HaltingSyscallEndsTheRun
  intro s t stepped halted
  obtain ⟨h, code⟩ := halting_step stepped halted
  cases (step_of_halting_syscall (run_of_step_next stepped) h code).symm.trans stepped
  exact ⟨h, rfl, step_of_halted halted⟩

/-- Settles O39: RUN is cleared or kept as register 2 says, and the rest is the default next state. -/
theorem syscallResult : Obligations.SyscallResult := by
  unfold Obligations.SyscallResult
  refine ⟨encodedAs_row .syscall, fun s => ?_⟩
  by_cases code : s.reg 2 = 10
  · exact ⟨_, exec_syscall_of_code code, by rw [code]; rfl, fun _ => rfl, ⟨rfl, rfl⟩, fun _ => rfl, rfl⟩
  · have other : (s.reg 2).toNat ≠ 10 := fun e => code (BitVec.eq_of_toNat_eq e)
    exact ⟨_, exec_syscall_of_not_code code, (if_neg other).symm, fun _ => rfl, ⟨rfl, rfl⟩, fun _ => rfl, rfl⟩

/-! ## The table of R67 -/

theorem State.setReg_reg_self (s : State) (r : RegIdx) : s.setReg r (s.reg r) = s :=
  State.ext_reg rfl (fun r' => by rw [State.reg_setReg]; split <;> simp_all) rfl rfl rfl rfl

theorem step_of_word {s : State} {w : Word} {i : Instr} (run : s.run = true) (fetched : s.fetchWord = w) (h : decode w = .instr i) :
    step s = exec i s := by
  rw [step_of_run run, cycle_of_instr (fetched ▸ h)]

/-- The four no-ops of the table that are single words. -/
theorem unassignedWord_of_mem {w : Word} (h : w ∈ [0xFFFFFFFF#32, 0x0000000D#32, 0x42000018#32, 0x04020000#32]) : UnassignedWord w := by
  rw [unassignedWord_iff]
  simp only [List.mem_cons, List.not_mem_nil, or_false] at h
  rcases h with rfl | rfl | rfl | rfl
  · exact ⟨.opcode 0x3F, by decide⟩
  · exact ⟨.funct 0x0D, by decide⟩
  · exact ⟨.opcode 0x10, by decide⟩
  · exact ⟨.selector 0x02, by decide⟩

/-- Settles O57: each word decodes as the table says, and a step runs what it decodes to. -/
theorem notableWords : Obligations.NotableWords := by
  unfold Obligations.NotableWords
  intro s run
  refine ⟨fun w => ?_, fun w code => ?_, fun w code => ?_, fun w => ?_, fun w => ?_, fun w => ?_⟩
  · rw [step_of_word run w (i := .sll 0 0 0) (by decide), exec_sll, shiftLeft, BitVec.shiftLeft_zero]
    exact congrArg Host.Outcome.next (s.defaultNext.setReg_reg_self 0)
  · rw [step_of_word run w (i := .syscall) (by decide), exec_syscall_of_code code]
    rfl
  · rw [step_of_word run w (i := .syscall) (by decide), exec_syscall_of_not_code code]
    rfl
  · exact step_of_unassignedWord run (unassignedWord_of_mem w)
  · have op : fieldOp s.fetchWord = 0x10#6 := (fieldOp_of_mask (by decide) w).trans (by decide)
    exact step_of_unassignedWord run (.inl (by rw [op]; decide))
  · refine ⟨_, (step_of_word run w (i := .sll 0 0 1) (by decide)).trans (exec_sll s 0 0 1), writesReg_of s 0 ?_⟩
    apply BitVec.eq_of_toNat_eq
    rw [shiftLeft, BitVec.toNat_shiftLeft, BitVec.toNat_add, Nat.shiftLeft_eq]
    omega

/-! ## Registers an instruction does not read (R13) -/

theorem State.setReg_setReg_same (s : State) (r : RegIdx) (v v' : Word) : (s.setReg r v).setReg r v' = s.setReg r v' :=
  State.ext_reg rfl (fun r' => by simp only [State.reg_setReg]; split <;> rfl) rfl rfl rfl rfl

theorem State.setReg_setReg_comm (s : State) {r r' : RegIdx} (h : r ≠ r') (v v' : Word) :
    (s.setReg r v).setReg r' v' = (s.setReg r' v').setReg r v :=
  State.ext_reg rfl (fun r'' => by simp only [State.reg_setReg]; split_ifs <;> simp_all) rfl rfl rfl rfl

section
variable {i : Instr} {s : State} {r : RegIdx} {v : Word}

/-- An instruction that writes its destination, the same value and the same PC whatever `r` holds. -/
theorem unread_of_writes {rd : RegIdx} {x x' d d' : Word} (dest : i.dest = some rd) (h : exec i s = .next ((s.setPc d).setReg rd x))
    (h' : exec i (s.setReg r v) = .next (((s.setReg r v).setPc d').setReg rd x')) (hd : d' = d) (hx : x' = x) :
    ∃ t u, exec i s = .next t ∧ exec i (s.setReg r v) = .next u ∧ u = if i.dest = some r then t else t.setReg r v := by
  subst hd hx
  refine ⟨_, _, h, h', ?_⟩
  by_cases same : rd = r
  · subst same
    rw [if_pos dest]
    exact (s.setPc d').setReg_setReg_same rd v x'
  · rw [if_neg (by rw [dest]; exact fun e => same (Option.some.inj e))]
    exact (s.setPc d').setReg_setReg_comm (Ne.symm same) v x'

/-- An instruction that writes no register, and ends in the same state but for `r`. -/
theorem unread_of_no_dest {t u : State} (dest : i.dest = none) (h : exec i s = .next t) (h' : exec i (s.setReg r v) = .next u)
    (hu : u = t.setReg r v) :
    ∃ t u, exec i s = .next t ∧ exec i (s.setReg r v) = .next u ∧ u = if i.dest = some r then t else t.setReg r v := by
  refine ⟨t, u, h, h', ?_⟩
  rw [hu, dest, if_neg (by simp)]

theorem State.branchIf_setReg (taken : Bool) (pc : Word) (imm : Half) :
    (s.setReg r v).branchIf taken pc imm = (s.branchIf taken pc imm).setReg r v := by
  cases taken <;> rfl

/-- R13: the values and destinations an instruction computes are made of the registers it reads. -/
theorem exec_setReg_of_unread (unread : r ∉ i.reads) :
    ∃ t u, exec i s = .next t ∧ exec i (s.setReg r v) = .next u ∧ u = if i.dest = some r then t else t.setReg r v := by
  have kept (x : RegIdx) (read : x ∈ i.reads) : (s.setReg r v).reg x = s.reg x :=
    State.reg_setReg_ne s (by rintro rfl; exact unread read) v
  cases i <;> simp only [Instr.reads, List.mem_cons, List.not_mem_nil, or_false, forall_eq_or_imp, forall_eq] at kept
  case mfhi | mflo | lui | jal => exact unread_of_writes rfl rfl rfl rfl rfl
  case jalr => exact unread_of_writes rfl rfl rfl kept rfl
  case bltzal | bgezal =>
    refine unread_of_writes rfl (congrArg _ (s.linking_branchIf_eq_setReg ..))
      (congrArg _ ((s.setReg r v).linking_branchIf_eq_setReg ..)) ?_ rfl
    rw [kept, State.setReg_pc]
  case lb | lh | lw | lbu | lhu => exact unread_of_writes rfl rfl rfl rfl (by rw [effAddr, kept]; rfl)
  case syscall =>
    by_cases code : s.reg 2 = 10
    · exact unread_of_no_dest rfl (exec_syscall_of_code code) (exec_syscall_of_code (kept.trans code)) rfl
    · exact unread_of_no_dest rfl (exec_syscall_of_not_code code) (exec_syscall_of_not_code (kept ▸ code)) rfl
  case j => exact unread_of_no_dest rfl rfl rfl rfl
  case jr | mthi | mtlo => exact unread_of_no_dest rfl rfl rfl (by rw [kept]; rfl)
  case mult | multu | div | divu => exact unread_of_no_dest rfl rfl rfl (by simp only [kept]; rfl)
  case sb | sh | sw => exact unread_of_no_dest rfl rfl rfl (by simp only [effAddr, kept]; rfl)
  case beq | bne | blez | bgtz | bltz | bgez =>
    refine unread_of_no_dest rfl rfl rfl ?_
    simp only [kept]
    exact s.defaultNext.branchIf_setReg ..
  all_goals exact unread_of_writes rfl rfl rfl rfl (by simp only [kept])

end

/-- Settles O54: such an instruction completes from both states, and they differ where the other value stood. -/
theorem unreadRegistersHaveNoInfluence : Obligations.UnreadRegistersHaveNoInfluence := by
  unfold Obligations.UnreadRegistersHaveNoInfluence
  intro i s r v unread
  exact exec_setReg_of_unread unread

end Sys2Proof.Machine
end

section
/-! The register-register instructions (R96 to R123): the numbers each shared operation computes, and what each instruction completes with. -/

namespace Sys2Proof.Machine

/-! ## Shifts (R96 to R102) -/

theorem shiftLeft_toNat (v : Word) (n : Nat) : (shiftLeft v n).toNat = v.toNat * 2 ^ n % 2 ^ 32 := by
  rw [shiftLeft, BitVec.toNat_shiftLeft, Nat.shiftLeft_eq]

theorem shiftRightLogical_toNat (v : Word) (n : Nat) : (shiftRightLogical v n).toNat = v.toNat / 2 ^ n := by
  rw [shiftRightLogical, BitVec.toNat_ushiftRight, Nat.shiftRight_eq_div_pow]

theorem shiftRightArith_toInt (v : Word) (n : Nat) : (shiftRightArith v n).toInt = v.toInt / (2 : Int) ^ n := by
  rw [shiftRightArith, BitVec.toInt_sshiftRight, Int.shiftRight_eq_div_pow]
  norm_cast

/-- Settles O1: each shift by a constant writes its operation's number. -/
theorem shiftByConstantResults : Obligations.ShiftByConstantResults := by
  unfold Obligations.ShiftByConstantResults
  refine ⟨encodedAs_row (.sll 0 0 0), encodedAs_row (.srl 0 0 0), encodedAs_row (.sra 0 0 0), fun rd rt shamt s => ⟨?_, ?_, ?_⟩⟩
  · exact ⟨_, exec_sll .., writesReg_of s rd (shiftLeft_toNat ..)⟩
  · exact ⟨_, exec_srl .., writesReg_of s rd (shiftRightLogical_toNat ..)⟩
  · exact ⟨_, exec_sra .., writesReg_of s rd (shiftRightArith_toInt ..)⟩

/-- Settles O2: the same operations, by the low 5 bits of `x[rs]`. -/
theorem variableShiftResults : Obligations.VariableShiftResults := by
  unfold Obligations.VariableShiftResults
  refine ⟨encodedAs_row (.sllv 0 0 0), encodedAs_row (.srlv 0 0 0), encodedAs_row (.srav 0 0 0), fun rd rt rs s => ?_⟩
  rw [← shiftAmount_eq]
  refine ⟨?_, ?_, ?_⟩
  · exact ⟨_, exec_sllv .., writesReg_of s rd (shiftLeft_toNat ..)⟩
  · exact ⟨_, exec_srlv .., writesReg_of s rd (shiftRightLogical_toNat ..)⟩
  · exact ⟨_, exec_srav .., writesReg_of s rd (shiftRightArith_toInt ..)⟩

/-! ## Sums, differences and bits (R103 to R110) -/

theorem sub_toNat (a b : Word) : ((a - b).toNat : Int) = (a.toNat - b.toNat : Int) % 2 ^ 32 := by
  have := a.isLt
  have := b.isLt
  rw [BitVec.toNat_sub]
  omega

/-- Settles O3: ADD is ADDU and SUB is SUBU, and both wrap. -/
theorem addSubtractResults : Obligations.AddSubtractResults := by
  unfold Obligations.AddSubtractResults
  refine ⟨encodedAs_row (.add 0 0 0), encodedAs_row (.addu 0 0 0), encodedAs_row (.sub 0 0 0), encodedAs_row (.subu 0 0 0),
    fun rd rs rt s => ⟨?_, ?_, ?_, ?_⟩⟩
  · exact ⟨_, exec_add .., writesReg_of s rd (BitVec.toNat_add ..)⟩
  · exact ⟨_, exec_addu .., writesReg_of s rd (BitVec.toNat_add ..)⟩
  · exact ⟨_, exec_sub .., writesReg_of s rd (sub_toNat ..)⟩
  · exact ⟨_, exec_subu .., writesReg_of s rd (sub_toNat ..)⟩

/-- Settles O4: each instruction is its operation on words, which works bit by bit. -/
theorem bitwiseLogicResults : Obligations.BitwiseLogicResults := by
  unfold Obligations.BitwiseLogicResults
  refine ⟨encodedAs_row (.and 0 0 0), encodedAs_row (.or 0 0 0), encodedAs_row (.xor 0 0 0), encodedAs_row (.nor 0 0 0),
    fun rd rs rt s => ⟨?_, ?_, ?_, ?_⟩⟩
  · exact ⟨_, exec_and .., writesReg_of s rd fun i _ => BitVec.getLsbD_and⟩
  · exact ⟨_, exec_or .., writesReg_of s rd fun i _ => BitVec.getLsbD_or⟩
  · exact ⟨_, exec_xor .., writesReg_of s rd fun i _ => BitVec.getLsbD_xor⟩
  · refine ⟨_, exec_nor .., writesReg_of s rd fun i hi => ?_⟩
    simp [hi]

/-! ## Comparisons (R111, R112) -/

theorem boolWord_decide (p : Prop) [Decidable p] : boolWord (decide p) = if p then 1 else 0 := by
  by_cases h : p <;> simp [boolWord, h]

/-- Settles O5: a comparison is written as 1 or 0. -/
theorem setOnLessThanResults : Obligations.SetOnLessThanResults := by
  unfold Obligations.SetOnLessThanResults
  refine ⟨encodedAs_row (.slt 0 0 0), encodedAs_row (.sltu 0 0 0), fun rd rs rt s => ⟨?_, ?_⟩⟩
  · exact ⟨_, exec_slt .., writesReg_of s rd (boolWord_decide _)⟩
  · exact ⟨_, exec_sltu .., writesReg_of s rd (boolWord_decide _)⟩

/-! ## Products (R113, R114) -/

/-- The product of two signed words fits in 63 bits. -/
theorem abs_toInt_mul_toInt_le (a b : Word) : |a.toInt * b.toInt| ≤ 2 ^ 62 := by
  have ha : |a.toInt| ≤ 2 ^ 31 := abs_le.mpr ⟨a.le_toInt, a.toInt_lt.le⟩
  have hb : |b.toInt| ≤ 2 ^ 31 := abs_le.mpr ⟨b.le_toInt, b.toInt_lt.le⟩
  calc |a.toInt * b.toInt| = |a.toInt| * |b.toInt| := abs_mul ..
    _ ≤ 2 ^ 31 * 2 ^ 31 := mul_le_mul ha hb (abs_nonneg _) (by norm_num)
    _ = 2 ^ 62 := by norm_num

theorem multiplySigned_toInt (a b : Word) : ((multiplySigned a b).1 ++ (multiplySigned a b).2 : BitVec 64).toInt = a.toInt * b.toInt := by
  obtain ⟨lower, upper⟩ := abs_le.mp (abs_toInt_mul_toInt_le a b)
  rw [multiplySigned, splitHiLo_append, BitVec.toInt_ofInt]
  exact Int.bmod_eq_of_le (by omega) (by omega)

theorem multiplyUnsigned_toNat (a b : Word) :
    (multiplyUnsigned a b).1.toNat * 2 ^ 32 + (multiplyUnsigned a b).2.toNat = a.toNat * b.toNat := by
  have fits : a.toNat * b.toNat < 2 ^ 64 := by
    calc a.toNat * b.toNat < 2 ^ 32 * 2 ^ 32 := Nat.mul_lt_mul'' a.isLt b.isLt
      _ = 2 ^ 64 := by norm_num
  rw [← toNat_append_eq, multiplyUnsigned, splitHiLo_append, BitVec.toNat_ofNat, Nat.mod_eq_of_lt fits]

/-- Settles O6: the exact product has room in 64 bits. -/
theorem multiplyResults : Obligations.MultiplyResults := by
  unfold Obligations.MultiplyResults
  refine ⟨encodedAs_row (.mult 0 0), encodedAs_row (.multu 0 0), fun rs rt s => ⟨?_, ?_⟩⟩
  · exact ⟨_, exec_mult .., writesHiLo_of s (multiplySigned_toInt ..)⟩
  · exact ⟨_, exec_multu .., writesHiLo_of s (multiplyUnsigned_toNat ..)⟩

/-! ## Quotients and remainders (R115 to R118) -/

/-- R118: the one quotient of signed words that no signed word holds. -/
theorem overflow_iff (a b : Word) : a.toInt = -2 ^ 31 ∧ b.toInt = -1 ↔ a = 0x80000000 ∧ b = 0xFFFFFFFF := by
  rw [← BitVec.toInt_inj, ← BitVec.toInt_inj]
  rfl

theorem toInt_ofInt_of_abs_le {x : Int} (lower : -2 ^ 31 ≤ x) (upper : x < 2 ^ 31) : (BitVec.ofInt 32 x).toInt = x := by
  rw [BitVec.toInt_ofInt]
  exact Int.bmod_eq_of_le (by omega) (by omega)

/-- R118: every other quotient of signed words is a signed word. -/
theorem tdiv_bounds (a b : Word) (fits : ¬(a.toInt = -2 ^ 31 ∧ b.toInt = -1)) :
    -2 ^ 31 ≤ a.toInt.tdiv b.toInt ∧ a.toInt.tdiv b.toInt < 2 ^ 31 := by
  have lower : -2 ^ 31 ≤ a.toInt := a.le_toInt
  have upper : a.toInt < 2 ^ 31 := a.toInt_lt
  have magnitude : (a.toInt.tdiv b.toInt).natAbs = a.toInt.natAbs / b.toInt.natAbs := Int.natAbs_tdiv ..
  rcases (by omega : b.toInt = 1 ∨ b.toInt = -1 ∨ b.toInt.natAbs = 0 ∨ 2 ≤ b.toInt.natAbs) with one | minusOne | zero | large
  · rw [one, Int.tdiv_one]
    exact ⟨lower, upper⟩
  · rw [minusOne, Int.tdiv_neg, Int.tdiv_one]
    omega
  · rw [zero, Nat.div_zero] at magnitude
    omega
  · have := Nat.div_le_div_left large (by omega) (a := a.toInt.natAbs)
    omega

/-- The remainder is smaller than the divisor. -/
theorem abs_tmod_lt (x : Int) {y : Int} (nonzero : y ≠ 0) : |x.tmod y| < |y| := by
  have := Nat.mod_lt x.natAbs (Int.natAbs_pos.mpr nonzero)
  rw [← Int.natAbs_tmod] at this
  rw [Int.abs_eq_natAbs, Int.abs_eq_natAbs]
  exact_mod_cast this

/-- The remainder is 0 or has the sign of the dividend. -/
theorem tmod_sign (x y : Int) : x.tmod y = 0 ∨ (x.tmod y < 0 ↔ x < 0) := by
  have sign := Int.sign_tmod x y
  split at sign
  · exact .inl (Int.sign_eq_zero_iff_zero.mp sign)
  · rw [← Int.sign_eq_neg_one_iff_neg, sign, Int.sign_eq_neg_one_iff_neg]
    exact .inr Iff.rfl

section
variable {a b : Word} (P : DivPolicy) (hi lo : Word)

theorem divideSigned_of_zero : divideSigned P a 0 hi lo = P.onZero a hi lo := if_pos rfl

theorem divideSigned_of_overflow (overflow : a.toInt = -2 ^ 31 ∧ b.toInt = -1) : divideSigned P a b hi lo = P.onOverflow hi lo := by
  obtain ⟨rfl, rfl⟩ := (overflow_iff a b).mp overflow
  rfl

/-- R115: apart from the two corners, the quotient rounded toward zero and its remainder. -/
theorem divideSigned_eq (nonzero : b ≠ 0) (fits : ¬(a.toInt = -2 ^ 31 ∧ b.toInt = -1)) :
    divideSigned P a b hi lo = (BitVec.ofInt 32 (a.toInt.tmod b.toInt), BitVec.ofInt 32 (a.toInt.tdiv b.toInt)) := by
  rw [divideSigned, if_neg nonzero, if_neg (mt (overflow_iff a b).mpr fits), Int.tmod_def, Int.mul_comm]

theorem divideUnsigned_of_zero : divideUnsigned P a 0 hi lo = P.onZero a hi lo := if_pos rfl

theorem divideUnsigned_eq (nonzero : b ≠ 0) :
    divideUnsigned P a b hi lo = (BitVec.ofNat 32 (a.toNat % b.toNat), BitVec.ofNat 32 (a.toNat / b.toNat)) := if_neg nonzero

end

theorem toInt_ne_zero {b : Word} (nonzero : b ≠ 0) : b.toInt ≠ 0 := fun h => nonzero (BitVec.eq_of_toInt_eq h)

theorem toNat_pos {b : Word} (nonzero : b ≠ 0) : 0 < b.toNat := Nat.pos_of_ne_zero fun h => nonzero (BitVec.eq_of_toNat_eq h)

/-- Settles O7: the corners are the policy's, and elsewhere HI and LO hold remainder and quotient, which both fit. -/
theorem signedDivideResults : Obligations.SignedDivideResults := by
  unfold Obligations.SignedDivideResults
  refine ⟨encodedAs_row (.div 0 0), fun rs rt s => ⟨_, exec_div .., writesHiLo_of s ?_⟩⟩
  split
  · next zero => rw [zero, divideSigned_of_zero]; exact ⟨rfl, rfl⟩
  · next nonzero =>
    split
    · next overflow => rw [divideSigned_of_overflow _ _ _ overflow]; exact ⟨rfl, rfl⟩
    · next fits =>
      obtain ⟨lower, upper⟩ := tdiv_bounds (s.reg rs) (s.reg rt) fits
      have small := abs_tmod_lt (s.reg rs).toInt (toInt_ne_zero nonzero)
      have divisor : |(s.reg rt).toInt| ≤ 2 ^ 31 := abs_le.mpr ⟨(s.reg rt).le_toInt, (s.reg rt).toInt_lt.le⟩
      obtain ⟨lower', upper'⟩ := abs_lt.mp (small.trans_le divisor)
      rw [divideSigned_eq _ _ _ nonzero fits, toInt_ofInt_of_abs_le lower upper, toInt_ofInt_of_abs_le lower'.le upper']
      exact ⟨(Int.tdiv_mul_add_tmod ..).symm, small, tmod_sign ..⟩

/-- Settles O8: the corner is the policy's, and elsewhere HI and LO hold remainder and quotient. -/
theorem unsignedDivideResults : Obligations.UnsignedDivideResults := by
  unfold Obligations.UnsignedDivideResults
  refine ⟨encodedAs_row (.divu 0 0), fun rs rt s => ⟨_, exec_divu .., writesHiLo_of s ?_⟩⟩
  split
  · next zero => rw [zero, divideUnsigned_of_zero]; exact ⟨rfl, rfl⟩
  · next nonzero =>
    have positive := toNat_pos nonzero
    have quotient : (s.reg rs).toNat / (s.reg rt).toNat < 2 ^ 32 := (Nat.div_le_self ..).trans_lt (s.reg rs).isLt
    have small := Nat.mod_lt (s.reg rs).toNat positive
    rw [divideUnsigned_eq _ _ _ nonzero, BitVec.toNat_ofNat, BitVec.toNat_ofNat, Nat.mod_eq_of_lt quotient,
      Nat.mod_eq_of_lt (small.trans (s.reg rt).isLt)]
    exact ⟨(Nat.div_add_mod' ..).symm, small⟩

/-- Settles O9: away from its corner a division does not ask the policy, and in every case it writes HI and LO alone. -/
theorem divisionPolicyReachesCornersOnly : Obligations.DivisionPolicyReachesCornersOnly := by
  unfold Obligations.DivisionPolicyReachesCornersOnly
  intro P rs rt s
  refine ⟨fun nonzero => ?_, fun nonzero fits => ?_, ⟨_, rfl, writesHiLo_of s trivial⟩, ⟨_, rfl, writesHiLo_of s trivial⟩⟩
  · rw [exec_divu, execDivuWith, divideUnsigned_eq P _ _ nonzero, divideUnsigned_eq divPolicy _ _ nonzero]
  · rw [exec_div, execDivWith, divideSigned_eq P _ _ nonzero fits, divideSigned_eq divPolicy _ _ nonzero fits]

/-- Settles O10: the moves copy HI, LO or the register. -/
theorem hiLoMoveResults : Obligations.HiLoMoveResults := by
  unfold Obligations.HiLoMoveResults
  refine ⟨encodedAs_row (.mfhi 0), encodedAs_row (.mflo 0), encodedAs_row (.mthi 0), encodedAs_row (.mtlo 0), fun r s => ⟨?_, ?_, ?_, ?_⟩⟩
  · exact ⟨_, exec_mfhi .., writesReg_of s r rfl⟩
  · exact ⟨_, exec_mflo .., writesReg_of s r rfl⟩
  · exact ⟨_, exec_mthi .., writesHiLo_of s (p := (s.reg r, s.lo)) ⟨rfl, rfl⟩⟩
  · exact ⟨_, exec_mtlo .., writesHiLo_of s (p := (s.hi, s.reg r)) ⟨rfl, rfl⟩⟩

/-! ## Laws (R123, R211) -/

/-- C6: as signed and as unsigned numbers two words compare differently exactly when their sign bits differ. -/
theorem lessSigned_ne_lessUnsigned_iff (a b : Word) : lessSigned a b ≠ lessUnsigned a b ↔ a.msb ≠ b.msb := by
  have := a.isLt
  have := b.isLt
  simp only [lessSigned, lessUnsigned, BitVec.msb_eq_decide, BitVec.toInt_eq_toNat_cond, ne_eq, decide_eq_decide]
  split_ifs <;> omega

theorem boolWord_inj {c d : Bool} : boolWord c = boolWord d ↔ c = d := by
  cases c <;> cases d <;> decide

/-- Settles O11: the first laws hold of the operations on words, and the last are C6 and the exact product. -/
theorem arithmeticLaws : Obligations.ArithmeticLaws := by
  unfold Obligations.ArithmeticLaws
  intro rd rs rt s
  have sumWithZero (zero : s.reg rt = 0) : (s.defaultNext.setReg rd (s.reg rs + s.reg rt)).reg rd = s.reg rs := by
    rw [State.reg_setReg_same, zero]
    exact BitVec.add_zero _
  refine ⟨fun zero => ⟨_, exec_add .., sumWithZero zero⟩, fun zero => ⟨_, exec_addu .., sumWithZero zero⟩, rfl, rfl,
    ⟨_, exec_slt .., ?slt⟩, ⟨_, exec_sltu .., ?sltu⟩, ⟨_, exec_slt .., _, exec_sltu .., ?differ⟩,
    ⟨_, exec_mult .., multiplySigned_toInt ..⟩, ⟨_, exec_multu .., multiplyUnsigned_toNat ..⟩⟩ <;>
    simp only [State.reg_setReg_same]
  case slt => simp [lessSigned, boolWord]
  case sltu => simp [lessUnsigned, boolWord]
  case differ => rw [ne_eq, boolWord_inj, ← ne_eq, lessSigned_ne_lessUnsigned_iff]

/-- The two halves of the signed product as numbers. -/
theorem multiplySigned_halves (a b : Word) :
    (multiplySigned a b).1.toInt * 2 ^ 32 + (multiplySigned a b).2.toNat = a.toInt * b.toInt := by
  rw [← multiplySigned_toInt, BitVec.toInt_append, if_neg (by decide), Int.mul_comm]

theorem multiplySigned_lo (a b : Word) : (multiplySigned a b).2 = a * b := by
  have halves := multiplySigned_halves a b
  have product : a * b = BitVec.ofInt 32 (a.toInt * b.toInt) := by rw [BitVec.ofInt_mul, BitVec.ofInt_toInt, BitVec.ofInt_toInt]
  have := (multiplySigned a b).2.isLt
  apply BitVec.eq_of_toNat_eq
  rw [product, BitVec.toNat_ofInt]
  omega

theorem multiplySigned_hi (a b : Word) : (multiplySigned a b).1.toInt = a.toInt * b.toInt / 2 ^ 32 := by
  have halves := multiplySigned_halves a b
  have := (multiplySigned a b).2.isLt
  omega

/-- Settles O12: the moves read the halves of the product that MULT has just left. -/
theorem productReadableAtOnce : Obligations.ProductReadableAtOnce := by
  unfold Obligations.ProductReadableAtOnce
  intro rs rt rd s
  refine ⟨_, exec_mult .., ⟨_, exec_mflo .., ?_⟩, ⟨_, exec_mfhi .., ?_⟩⟩ <;> simp only [State.reg_setReg_same]
  · exact multiplySigned_lo ..
  · exact multiplySigned_hi ..

end Sys2Proof.Machine
end

section
/-! The register-immediate instructions (R131 to R138) and the constants they build (R69). -/

namespace Sys2Proof.Machine

/-! ## The operands -/

theorem add_extendedImm_toNat (v : Word) (imm : Half) : ((v + extendedImm imm).toNat : Int) = (v.toNat + imm.toInt : Int) % 2 ^ 32 := by
  rw [extendedImm_eq_ofInt, BitVec.toNat_add, BitVec.toNat_ofInt]
  omega

/-- R134: the sign-extended immediate as an unsigned number. -/
theorem extendedImm_toNat (imm : Half) : (extendedImm imm).toNat = if imm.toNat < 0x8000 then imm.toNat else 0xFFFF0000 + imm.toNat := by
  have := imm.isLt
  rw [extendedImm_eq_ofInt, BitVec.toNat_ofInt, BitVec.toInt_eq_toNat_cond]
  split_ifs <;> omega

/-- R135: bits 31 to 16 of the operand are copies of bit 15 of the immediate. -/
theorem getLsbD_extendedImm (imm : Half) {i : Nat} (hi : i < 32) :
    (extendedImm imm).getLsbD i = if i < 16 then imm.getLsbD i else imm.getLsbD 15 := by
  rw [extendedImm, sext16, BitVec.getLsbD_signExtend]
  simp [hi, BitVec.msb_eq_getLsbD_last]

theorem luiValue_toNat (imm : Half) : (luiValue imm).toNat = imm.toNat * 2 ^ 16 := by
  have := imm.isLt
  rw [luiValue, BitVec.toNat_shiftLeft, Nat.shiftLeft_eq, zext16_toNat]
  omega

/-! ## Results -/

/-- Settles O13: both add the sign-extended immediate. -/
theorem addImmediateResults : Obligations.AddImmediateResults := by
  unfold Obligations.AddImmediateResults
  refine ⟨encodedAs_row (.addi 0 0 0), encodedAs_row (.addiu 0 0 0), fun rt rs imm s => ⟨?_, ?_⟩⟩
  · exact ⟨_, exec_addi .., writesReg_of s rt (add_extendedImm_toNat ..)⟩
  · exact ⟨_, exec_addiu .., writesReg_of s rt (add_extendedImm_toNat ..)⟩

/-- Settles O14: both compare with the sign-extended immediate, as signed and as unsigned numbers. -/
theorem setOnLessThanImmediateResults : Obligations.SetOnLessThanImmediateResults := by
  unfold Obligations.SetOnLessThanImmediateResults
  refine ⟨encodedAs_row (.slti 0 0 0), encodedAs_row (.sltiu 0 0 0), fun rt rs imm s => ⟨?_, ?_⟩⟩
  · rw [← extendedImm_toInt]
    exact ⟨_, exec_slti .., writesReg_of s rt (boolWord_decide _)⟩
  · rw [← extendedImm_toNat]
    exact ⟨_, exec_sltiu .., writesReg_of s rt (boolWord_decide _)⟩

/-- Settles O15: the operations work bit by bit on the register and the sign-extended immediate. -/
theorem logicalImmediateResults : Obligations.LogicalImmediateResults := by
  unfold Obligations.LogicalImmediateResults
  refine ⟨encodedAs_row (.andi 0 0 0), encodedAs_row (.ori 0 0 0), encodedAs_row (.xori 0 0 0), fun rt rs imm s => ⟨?_, ?_, ?_⟩⟩
  · exact ⟨_, exec_andi .., writesReg_of s rt fun i hi => by rw [← getLsbD_extendedImm imm hi]; exact BitVec.getLsbD_and⟩
  · exact ⟨_, exec_ori .., writesReg_of s rt fun i hi => by rw [← getLsbD_extendedImm imm hi]; exact BitVec.getLsbD_or⟩
  · exact ⟨_, exec_xori .., writesReg_of s rt fun i hi => by rw [← getLsbD_extendedImm imm hi]; exact BitVec.getLsbD_xor⟩

/-- Settles O16: the immediate in the upper half. -/
theorem loadUpperImmediateResult : Obligations.LoadUpperImmediateResult := by
  unfold Obligations.LoadUpperImmediateResult
  exact ⟨encodedAs_row (.lui 0 0), fun rt imm s => ⟨_, exec_lui .., writesReg_of s rt (luiValue_toNat imm)⟩⟩

/-! ## Constants (R69) -/

theorem getLsbD_lui_or_low (c : Word) {i : Nat} (hi : i < 32) :
    (luiValue (c.extractLsb' 16 16) ||| extendedImm (c.extractLsb' 0 16)).getLsbD i =
      if i < 16 then c.getLsbD i else c.getLsbD i || c.getLsbD 15 := by
  rw [BitVec.getLsbD_or, getLsbD_extendedImm _ hi, luiValue, BitVec.getLsbD_shiftLeft, zext16, BitVec.getLsbD_setWidth]
  by_cases low : i < 16
  · simp [low, hi]
  · simp [low, hi, show i - 16 < 16 by omega, show i - 16 < 32 by omega, show 16 + (i - 16) = i by omega]

theorem upperHalf_eq_ones_iff (c : Word) : c.extractLsb' 16 16 = 0xFFFF#16 ↔ ∀ i, 16 ≤ i → i < 32 → c.getLsbD i = true := by
  have ones : (0xFFFF#16) = BitVec.allOnes 16 := rfl
  rw [ones]
  constructor
  · intro same i high hi
    have bit : (c.extractLsb' 16 16).getLsbD (i - 16) = true := by
      rw [same, BitVec.getLsbD_allOnes, decide_eq_true (by omega)]
    simpa [show i - 16 < 16 by omega, show 16 + (i - 16) = i by omega] using bit
  · intro bits
    refine BitVec.eq_of_getLsbD_eq fun i hi => ?_
    rw [BitVec.getLsbD_extractLsb', BitVec.getLsbD_allOnes, bits (16 + i) (by omega) (by omega), Bool.and_true]

/-- ORI's sign extension keeps the upper half that LUI put there where bit 15 is 0, and makes it all ones where bit 15 is 1. -/
theorem lui_or_low_eq_iff (c : Word) : luiValue (c.extractLsb' 16 16) ||| extendedImm (c.extractLsb' 0 16) = c ↔
    c.getLsbD 15 = false ∨ c.extractLsb' 16 16 = 0xFFFF#16 := by
  rw [upperHalf_eq_ones_iff]
  constructor
  · intro same
    cases bit15 : c.getLsbD 15 with
    | false => exact .inl rfl
    | true =>
      refine .inr fun i high hi => ?_
      have bit := getLsbD_lui_or_low c hi
      rwa [same, if_neg (by omega), bit15, Bool.or_true] at bit
  · intro upper
    refine BitVec.eq_of_getLsbD_eq fun i hi => ?_
    rw [getLsbD_lui_or_low c hi]
    split
    · rfl
    · next high =>
      rcases upper with zero | ones
      · rw [zero, Bool.or_false]
      · rw [ones i (by omega) hi, Bool.true_or]

/-- Adding 0x8000 before LUI makes up for the 1 that ADDIU's sign extension takes from the upper half where bit 15 is 1. -/
theorem lui_add_low (c : Word) : luiValue ((c + 0x8000).extractLsb' 16 16) + extendedImm (c.extractLsb' 0 16) = c := by
  have := c.isLt
  have carry : (0x8000 : Word).toNat = 0x8000 := rfl
  apply BitVec.eq_of_toNat_eq
  rw [BitVec.toNat_add, luiValue_toNat, extendedImm_toNat]
  simp only [BitVec.extractLsb'_toNat, BitVec.toNat_add, Nat.shiftRight_eq_div_pow, carry]
  split_ifs <;> omega

/-- Settles O18: after LUI the second instruction works on the upper half of the constant, or of the constant plus 0x8000. -/
theorem loadConstantIdioms : Obligations.LoadConstantIdioms := by
  unfold Obligations.LoadConstantIdioms
  intro rt c s
  refine ⟨⟨_, exec_lui .., _, exec_ori .., ?_⟩, ⟨_, exec_lui .., _, exec_addiu .., ?_⟩⟩ <;> simp only [State.reg_setReg_same]
  · exact lui_or_low_eq_iff c
  · exact lui_add_low c

end Sys2Proof.Machine
end

section
/-! Jumps and branches (R145 to R161): destinations as numbers, and what each instruction completes with. -/

namespace Sys2Proof.Machine

/-! ## Destinations -/

/-- R147: the region of the PC, the target field and two zero bits stand side by side. -/
theorem jumpDest_eq (pc : Word) (tgt26 : BitVec 26) :
    jumpDest pc tgt26 = BitVec.ofNat 32 (pc.toNat / 2 ^ 28 * 2 ^ 28 + tgt26.toNat * 4) := by
  have fits : tgt26.toNat * 4 < 2 ^ 28 := by have := tgt26.isLt; omega
  have low : ((jumpTarget tgt26).extractLsb' 0 28).setWidth 32 = jumpTarget tgt26 := by
    apply BitVec.eq_of_toNat_eq
    rw [BitVec.toNat_setWidth_of_le (by omega), BitVec.extractLsb'_toNat, Nat.shiftRight_zero, jumpTarget_toNat, Nat.mod_eq_of_lt fits]
  have region : (0xF0000000 : Word) = BitVec.allOnes 32 <<< 28 := by decide
  rw [jumpDest, region, ← low, mergeLow_eq_mergedWord, mergedWord, jumpTarget_toNat, Nat.mod_eq_of_lt fits]

/-- R147: a jump's destination is a multiple of 4. -/
theorem jumpDest_toNat_mod (pc : Word) (tgt26 : BitVec 26) : (jumpDest pc tgt26).toNat % 4 = 0 := by
  rw [jumpDest_eq, BitVec.toNat_ofNat]
  omega

/-- R146: a taken branch moves the PC by a multiple of 4. -/
theorem branchDest_toNat_mod (pc : Word) (imm : Half) : (branchDest pc imm).toNat % 4 = pc.toNat % 4 := by
  rw [branchDest_eq, branchTarget, BitVec.toNat_ofInt]
  omega

theorem default_toNat_mod (pc : Word) : (pc + 4).toNat % 4 = pc.toNat % 4 := by
  have four : (4 : Word).toNat = 4 := rfl
  rw [BitVec.toNat_add, four]
  omega

/-! ## The branch instructions -/

section
variable {s : State} {i : Instr} {taken : Bool} {imm : Half} {p : Prop} [Decidable p]

/-- A branch goes where the condition it tests says. -/
theorem completes_branch (h : exec i s = .next (s.defaultNext.branchIf taken s.pc imm)) (condition : taken = true ↔ p) :
    Completes i s (SetsPc s (if p then branchTarget s.pc imm else s.pc + 4)) := by
  refine ⟨_, h, ?_⟩
  have sets := setsPc_branchIf s taken imm
  rwa [if_congr condition rfl rfl, branchDest_eq] at sets

/-- And a linking branch writes the link besides, whether or not it is taken. -/
theorem completes_linking_branch (h : exec i s = .next ((s.defaultNext.setReg linkReg (linkValue s.pc)).branchIf taken s.pc imm))
    (condition : taken = true ↔ p) :
    Completes i s (SetsPcAndLinks s 31 (if p then branchTarget s.pc imm else s.pc + 4)) := by
  refine ⟨_, h, ?_⟩
  have sets := setsPcAndLinks_branchIf s linkReg taken imm
  rwa [if_congr condition rfl rfl, branchDest_eq] at sets

end

theorem isNegative_iff_msb (v : Word) : isNegative v = true ↔ v.msb = true := by rw [isNegative_eq]

theorem not_isNegative_iff_msb (v : Word) : (!isNegative v) = true ↔ v.msb = false := by rw [isNegative_eq, Bool.not_eq_true']

theorem not_isNonPositive_iff (v : Word) : (!isNonPositive v) = true ↔ v.msb = false ∧ v ≠ 0 := by
  rw [Bool.not_eq_true', ← Bool.not_eq_true, isNonPositive_iff, not_or, Bool.not_eq_true]

/-- Settles O21: all 32 bits are compared. -/
theorem equalityBranchResults : Obligations.EqualityBranchResults := by
  unfold Obligations.EqualityBranchResults
  refine ⟨encodedAs_row (.beq 0 0 0), encodedAs_row (.bne 0 0 0), fun rs rt imm s => ⟨?_, ?_⟩⟩
  · exact completes_branch (exec_beq ..) beq_iff_eq
  · exact completes_branch (exec_bne ..) bne_iff_ne

/-- Settles O22: at most zero is negative or zero. -/
theorem zeroCompareBranchResults : Obligations.ZeroCompareBranchResults := by
  unfold Obligations.ZeroCompareBranchResults
  refine ⟨encodedAs_row (.blez 0 0), encodedAs_row (.bgtz 0 0), fun rs imm s => ⟨?_, ?_⟩⟩
  · exact completes_branch (exec_blez ..) (isNonPositive_iff _)
  · exact completes_branch (exec_bgtz ..) (not_isNonPositive_iff _)

/-- Settles O23: negative is bit 31. -/
theorem signBranchResults : Obligations.SignBranchResults := by
  unfold Obligations.SignBranchResults
  refine ⟨encodedAs_row (.bltz 0 0), encodedAs_row (.bgez 0 0), fun rs imm s => ⟨?_, ?_⟩⟩
  · exact completes_branch (exec_bltz ..) (isNegative_iff_msb _)
  · exact completes_branch (exec_bgez ..) (not_isNegative_iff_msb _)

/-- Settles O24: the condition is read before the link is written. -/
theorem linkingSignBranchResults : Obligations.LinkingSignBranchResults := by
  unfold Obligations.LinkingSignBranchResults
  refine ⟨encodedAs_row (.bltzal 0 0), encodedAs_row (.bgezal 0 0), fun rs imm s => ⟨?_, ?_⟩⟩
  · exact completes_linking_branch (exec_bltzal ..) (isNegative_iff_msb _)
  · exact completes_linking_branch (exec_bgezal ..) (not_isNegative_iff_msb _)

/-! ## The jumps -/

/-- Settles O19: the destination keeps the region of the jump's own address. -/
theorem jumpResults : Obligations.JumpResults := by
  unfold Obligations.JumpResults
  refine ⟨encodedAs_row (.j 0), encodedAs_row (.jal 0), fun tgt26 s => ?_⟩
  rw [← jumpDest_eq]
  exact ⟨⟨_, exec_j .., setsPc_of s _⟩, ⟨_, exec_jal .., setsPcAndLinks_of s 31 _⟩⟩

/-- Settles O20: the destination is read before the link is written, and the link is where JR $31 goes. -/
theorem jumpRegisterResults : Obligations.JumpRegisterResults := by
  unfold Obligations.JumpRegisterResults
  refine ⟨encodedAs_row (.jr 0), encodedAs_row (.jalr 0 0), fun rd rs s => ⟨?_, ?_⟩, fun tgt26 s => ?_⟩
  · exact ⟨_, exec_jr .., setsPc_of s _⟩
  · exact ⟨_, exec_jalr .., setsPcAndLinks_of s rd _⟩
  · obtain ⟨_, link, _⟩ := setsPcAndLinks_of s linkReg (jumpDest s.pc tgt26)
    exact ⟨_, exec_jal .., link, fun u found => ⟨_, exec_jr .., found.trans link⟩⟩

/-! ## Alignment (R159) -/

theorem branchIf_pc_toNat_mod {s next : State} (default : next.pc = s.pc + 4) (taken : Bool) (imm : Half) :
    (next.branchIf taken s.pc imm).pc.toNat % 4 = s.pc.toNat % 4 := by
  rw [State.branchIf_pc, default]
  split
  · exact branchDest_toNat_mod ..
  · exact default_toNat_mod ..

/-- Every instruction but the four jumps keeps the PC modulo 4. -/
theorem completes_pc_mod {i : Instr} (notJump : ∀ tgt26, i ≠ .j tgt26 ∧ i ≠ .jal tgt26) (notJumpRegister : ∀ rd rs, i ≠ .jr rs ∧ i ≠ .jalr rd rs)
    (s : State) : Completes i s fun t => t.pc.toNat % 4 = s.pc.toNat % 4 := by
  cases i
  case j tgt26 => exact absurd rfl (notJump tgt26).1
  case jal tgt26 => exact absurd rfl (notJump tgt26).2
  case jr rs => exact absurd rfl (notJumpRegister 0 rs).1
  case jalr rd rs => exact absurd rfl (notJumpRegister rd rs).2
  case beq | bne | blez | bgtz | bltz | bgez | bltzal | bgezal => exact ⟨_, rfl, branchIf_pc_toNat_mod rfl ..⟩
  all_goals exact (completes_defaultPc_of_not_transfers _ id).mono fun t pc => by rw [pc, default_toNat_mod]

/-- Settles O26: a jump's destination ends in two zero bits, and the PC moves by a multiple of 4 elsewhere. -/
theorem pcAlignment : Obligations.PcAlignment := by
  unfold Obligations.PcAlignment
  intro i s t h
  constructor
  · rintro ⟨tgt26, rfl | rfl⟩
    · cases (exec_j s tgt26).symm.trans h
      exact jumpDest_toNat_mod ..
    · cases (exec_jal s tgt26).symm.trans h
      exact jumpDest_toNat_mod ..
  · exact fun notJump notJumpRegister => (completes_pc_mod notJump notJumpRegister s).of_next h

/-! ## Labels (R68) -/

/-- A label in the region of the jump's own address is the destination of its field. -/
theorem jumpDest_jumpField {pc label : Word} (reach : jumpReaches pc label = true) : jumpDest pc (jumpField label) = label := by
  simp only [jumpReaches, Bool.and_eq_true, beq_iff_eq, ← BitVec.toNat_inj, BitVec.extractLsb'_toNat, Nat.shiftRight_eq_div_pow] at reach
  obtain ⟨region, aligned⟩ := reach
  have zero : (0 : BitVec 2).toNat = 0 := rfl
  have := label.isLt
  have := pc.isLt
  apply BitVec.eq_of_toNat_eq
  rw [jumpDest_eq, BitVec.toNat_ofNat, jumpField, BitVec.extractLsb'_toNat, Nat.shiftRight_eq_div_pow]
  omega

/-- A quarter of a displacement in the range of a branch fits in the immediate. -/
theorem branchField_toInt {pc label : Word} (reach : branchReaches pc label = true) :
    4 * (branchField pc label).toInt = (label - (pc + 4)).toInt := by
  simp only [branchReaches, Bool.and_eq_true, beq_iff_eq, decide_eq_true_eq] at reach
  obtain ⟨⟨aligned, lower⟩, upper⟩ := reach
  rw [branchField, BitVec.toInt_eq_toNat_cond, BitVec.extractLsb'_toNat, Nat.shiftRight_eq_div_pow]
  rw [BitVec.toInt_eq_toNat_cond] at aligned lower upper ⊢
  split_ifs at * <;> omega

theorem branchDest_branchField {pc label : Word} (reach : branchReaches pc label = true) : branchDest pc (branchField pc label) = label := by
  rw [branchDest_eq, branchTarget, branchField_toInt reach, BitVec.ofInt_add, BitVec.ofInt_toInt, BitVec.ofInt_add, BitVec.ofInt_natCast,
    BitVec.ofNat_toNat, BitVec.setWidth_eq]
  exact add_sub_cancel ..

/-- Settles O27: J goes to the label of its field, and BEQ of a register with itself is taken to the label of its. -/
theorem labelFieldsReachLabel : Obligations.LabelFieldsReachLabel := by
  unfold Obligations.LabelFieldsReachLabel
  rintro _ label s rfl
  refine ⟨fun reach => ⟨_, exec_j .., jumpDest_jumpField reach⟩, fun reach r => ⟨_, exec_beq .., ?_⟩⟩
  calc (s.defaultNext.branchIf (s.reg r == s.reg r) s.pc (branchField s.pc label)).pc
      = branchDest s.pc (branchField s.pc label) := by rw [State.branchIf_pc, if_pos (beq_self_eq_true _)]
    _ = label := branchDest_branchField reach

end Sys2Proof.Machine
end
